-- ==== Sys2Proof/Word.lean ====
section
/-! DEFINITION. The widths of the hardware (spec rules R5, R8, R9): all values are unsigned. -/

namespace Sys2Proof

/-- A byte: a general register, a timer, a memory byte, the immediate `kk` (R5, R50). -/
abbrev Byte := BitVec 8

/-- 16 bits: `PC`, `I`, a stack entry, an instruction word (R5). -/
abbrev Word := BitVec 16

/-- The 12-bit address field `nnn` (R71). -/
abbrev Addr := BitVec 12

/-- The index of a general register, 0..15 (R21). A decoded register field is always in this range (R73). -/
abbrev RegIdx := Fin 16

end Sys2Proof
end

