-- ==== Sys2Proof/Config.lean ====
section
/-! DEFINITION. What the spec leaves open as a parameter (R6): the random byte.
The FONT table, the other parameter with bytes of its own, is the field `font` of
`Sys2Proof.Machine.State` (any table; its default is in Machine/Font.lean); the host schedule is a list of
`Sys2Proof.Machine.Transaction`. -/

namespace Sys2Proof.Config

/-- `draw()` (R9, R142, R230): the byte the random source delivers at the `k`-th draw, "a free input with no
law". It has no body: nothing can evaluate it, so what is proved holds for every byte.
DESIGN CHOICE, log entry 3. -/
opaque randomByte : Nat → Byte

end Sys2Proof.Config
end

