-- ==== Sys2Proof/Syntax.lean ====
section
/-! DEFINITION. The 34 instructions of rule R76, one constructor for each row of spec/opcode_table.json. -/

namespace Sys2Proof

/-- One instruction, with the operands its format names (R72). Every operand range of R73 (`x`, `y` in 0..15,
`n` in 0..15, `kk` in 0..255, `nnn` in 0..0xFFF) is in the operand's type. -/
inductive Instr where
  /-- `CLS`, 0-E0 (R181) -/
  | cls
  /-- `RET`, 0-EE (R110) -/
  | ret
  /-- `JP nnn`, 1nnn (R111) -/
  | jp (nnn : Addr)
  /-- `CALL nnn`, 2nnn (R112) -/
  | call (nnn : Addr)
  /-- `SE Vx, kk`, 3xkk (R113) -/
  | seImm (x : RegIdx) (kk : Byte)
  /-- `SNE Vx, kk`, 4xkk (R114) -/
  | sneImm (x : RegIdx) (kk : Byte)
  /-- `SE Vx, Vy`, 5xy- (R115) -/
  | seReg (x y : RegIdx)
  /-- `LD Vx, kk`, 6xkk (R131) -/
  | ldImm (x : RegIdx) (kk : Byte)
  /-- `ADD Vx, kk`, 7xkk (R132) -/
  | addImm (x : RegIdx) (kk : Byte)
  /-- `LD Vx, Vy`, 8xy0, the source's MOV (R133) -/
  | ldReg (x y : RegIdx)
  /-- `OR Vx, Vy`, 8xy1 (R134) -/
  | orReg (x y : RegIdx)
  /-- `AND Vx, Vy`, 8xy2 (R135) -/
  | andReg (x y : RegIdx)
  /-- `XOR Vx, Vy`, 8xy3 (R136) -/
  | xorReg (x y : RegIdx)
  /-- `ADD Vx, Vy`, 8xy4 (R137) -/
  | addReg (x y : RegIdx)
  /-- `SUB Vx, Vy`, 8xy5 (R138) -/
  | sub (x y : RegIdx)
  /-- `SHR Vx, Vy`, 8xy6 (R139) -/
  | shr (x y : RegIdx)
  /-- `SUBN Vx, Vy`, 8xy7 (R140) -/
  | subn (x y : RegIdx)
  /-- `SHL Vx, Vy`, 8xyE (R141) -/
  | shl (x y : RegIdx)
  /-- `SNE Vx, Vy`, 9xy- (R116) -/
  | sneReg (x y : RegIdx)
  /-- `LD I, nnn`, Annn (R160) -/
  | ldI (nnn : Addr)
  /-- `JP V0, nnn`, Bnnn (R117) -/
  | jpV0 (nnn : Addr)
  /-- `RND Vx, kk`, Cxkk (R142) -/
  | rnd (x : RegIdx) (kk : Byte)
  /-- `DRW Vx, Vy, n`, Dxyn (R182) -/
  | drw (x y : RegIdx) (n : BitVec 4)
  /-- `SKP Vx`, Ex9E (R200) -/
  | skp (x : RegIdx)
  /-- `SKNP Vx`, ExA1 (R201) -/
  | sknp (x : RegIdx)
  /-- `LD Vx, DT`, Fx07 (R202) -/
  | ldVxDt (x : RegIdx)
  /-- `LD Vx, K`, Fx0A (R203) -/
  | ldVxK (x : RegIdx)
  /-- `LD DT, Vx`, Fx15 (R204) -/
  | ldDtVx (x : RegIdx)
  /-- `LD ST, Vx`, Fx18 (R205) -/
  | ldStVx (x : RegIdx)
  /-- `ADD I, Vx`, Fx1E (R161) -/
  | addI (x : RegIdx)
  /-- `LD F, Vx`, Fx29 (R162) -/
  | ldF (x : RegIdx)
  /-- `LD B, Vx`, Fx33 (R163) -/
  | ldB (x : RegIdx)
  /-- `LD [I], Vx`, Fx55 (R164) -/
  | ldMemVx (x : RegIdx)
  /-- `LD Vx, [I]`, Fx65 (R165) -/
  | ldVxMem (x : RegIdx)
  deriving DecidableEq, Repr

end Sys2Proof
end

