-- ==== Sys2Proof/Decode.lean ====
section
/-! DEFINITION. The Decoder (R71, R93), the Dispatcher's choice of handler (R74, R75, R94), the encoder, and the
opcode table of R76 as rows of match and mask. The numeric opcodes are the spec's (its K1, D3: general
knowledge, not in its source): PRESUMED, log entry 11. -/

namespace Sys2Proof

/-- The six fields of an instruction word (R71); all are extracted from every word. -/
structure Fields where
  op : BitVec 4
  x : RegIdx
  y : RegIdx
  n : BitVec 4
  kk : Byte
  nnn : Addr
  deriving DecidableEq, Repr

/-- The Decoder: pure bit selection, which cannot fail (R71, R93). -/
def fieldsOf (w : Word) : Fields where
  op := w.extractLsb' 12 4
  x := (w.extractLsb' 8 4).toFin
  y := (w.extractLsb' 4 4).toFin
  n := w.extractLsb' 0 4
  kk := w.extractLsb' 0 8
  nnn := w.extractLsb' 0 12

/-- The second-level table of family 0x0, keyed by the low byte (R75); bits 11:8 are ignored (R77, D4). -/
def dispatch0 (f : Fields) : Option Instr :=
  match f.kk with
  | 0xE0#8 => some .cls
  | 0xEE#8 => some .ret
  | _ => none

/-- The second-level table of family 0x8, keyed by the low nibble (R75). -/
def dispatch8 (f : Fields) : Option Instr :=
  match f.n with
  | 0x0#4 => some (.ldReg f.x f.y)
  | 0x1#4 => some (.orReg f.x f.y)
  | 0x2#4 => some (.andReg f.x f.y)
  | 0x3#4 => some (.xorReg f.x f.y)
  | 0x4#4 => some (.addReg f.x f.y)
  | 0x5#4 => some (.sub f.x f.y)
  | 0x6#4 => some (.shr f.x f.y)
  | 0x7#4 => some (.subn f.x f.y)
  | 0xE#4 => some (.shl f.x f.y)
  | _ => none

/-- The second-level table of family 0xE, keyed by the low byte (R75). -/
def dispatchE (f : Fields) : Option Instr :=
  match f.kk with
  | 0x9E#8 => some (.skp f.x)
  | 0xA1#8 => some (.sknp f.x)
  | _ => none

/-- The second-level table of family 0xF, keyed by the low byte (R75). -/
def dispatchF (f : Fields) : Option Instr :=
  match f.kk with
  | 0x07#8 => some (.ldVxDt f.x)
  | 0x0A#8 => some (.ldVxK f.x)
  | 0x15#8 => some (.ldDtVx f.x)
  | 0x18#8 => some (.ldStVx f.x)
  | 0x1E#8 => some (.addI f.x)
  | 0x29#8 => some (.ldF f.x)
  | 0x33#8 => some (.ldB f.x)
  | 0x55#8 => some (.ldMemVx f.x)
  | 0x65#8 => some (.ldVxMem f.x)
  | _ => none

/-- The two-level lookup of R94; `none` is the unknown word (R78). Families 0x5 and 0x9 have no secondary key, so
their bits 3:0 are ignored (R77, D4). -/
def dispatch (f : Fields) : Option Instr :=
  match f.op with
  | 0x0#4 => dispatch0 f
  | 0x1#4 => some (.jp f.nnn)
  | 0x2#4 => some (.call f.nnn)
  | 0x3#4 => some (.seImm f.x f.kk)
  | 0x4#4 => some (.sneImm f.x f.kk)
  | 0x5#4 => some (.seReg f.x f.y)
  | 0x6#4 => some (.ldImm f.x f.kk)
  | 0x7#4 => some (.addImm f.x f.kk)
  | 0x8#4 => dispatch8 f
  | 0x9#4 => some (.sneReg f.x f.y)
  | 0xA#4 => some (.ldI f.nnn)
  | 0xB#4 => some (.jpV0 f.nnn)
  | 0xC#4 => some (.rnd f.x f.kk)
  | 0xD#4 => some (.drw f.x f.y f.n)
  | 0xE#4 => dispatchE f
  | _ => dispatchF f

/-- The instruction a 16-bit word stands for, or `none` for an unknown word (R78, R79). -/
def decodeWord (w : Word) : Option Instr := dispatch (fieldsOf w)

/-- The word formed from the two bytes of a fetch: the first byte is bits 15:8, the second bits 7:0 (R51; the
order is general knowledge, K2, D2: PRESUMED, log entry 10). -/
def wordOf (hi lo : Byte) : Word := hi ++ lo

/-- Why bytes are no instruction. -/
inductive DecodeError where
  /-- fewer than the two bytes every instruction has (R70) -/
  | truncated
  /-- a whole word that no row of R76 matches (R78) -/
  | unknownWord
  deriving DecidableEq, Repr

/-- Decoding from bytes in memory order: the instruction and the bytes after it, or the reason there is none.
Total on every list of bytes. -/
def decodeBytes : List Byte → Except DecodeError (Instr × List Byte)
  | hi :: lo :: rest =>
    match decodeWord (wordOf hi lo) with
    | some i => .ok (i, rest)
    | none => .error .unknownWord
  | _ => .error .truncated

/-- What the decoder reads from an instruction whose bits are `w`, as spec/opcode_table.json numbers them: the
one 16-bit word, stored high byte first (R51, R70). -/
def decodeTableWord (nbits w : Nat) : Option Instr :=
  let word : Word := BitVec.ofNat 16 (w % 2 ^ nbits)
  match decodeBytes [word.extractLsb' 8 8, word.extractLsb' 0 8] with
  | .ok (i, _) => some i
  | .error _ => none

/-! ### The encoder -/

/-- Format F_NNN: `op : nnn` (R72). -/
def encNNN (op : BitVec 4) (nnn : Addr) : Word := op ++ nnn

/-- Formats F_XKK and F_XK: `op : x : kk` (R72). -/
def encXKK (op : BitVec 4) (x : RegIdx) (kk : Byte) : Word :=
  (op ++ (BitVec.ofFin x : BitVec 4) : BitVec 8) ++ kk

/-- Format F_XYN: `op : x : y : n` (R72). -/
def encXYN (op : BitVec 4) (x y : RegIdx) (n : BitVec 4) : Word :=
  (op ++ (BitVec.ofFin x : BitVec 4) : BitVec 8) ++ ((BitVec.ofFin y : BitVec 4) ++ n : BitVec 8)

/-- The word of an instruction, in its canonical spelling: ignored bits are zero (R76, R77). -/
def encode : Instr → Word
  | .cls => 0x00E0#16
  | .ret => 0x00EE#16
  | .jp nnn => encNNN 0x1 nnn
  | .call nnn => encNNN 0x2 nnn
  | .seImm x kk => encXKK 0x3 x kk
  | .sneImm x kk => encXKK 0x4 x kk
  | .seReg x y => encXYN 0x5 x y 0x0
  | .ldImm x kk => encXKK 0x6 x kk
  | .addImm x kk => encXKK 0x7 x kk
  | .ldReg x y => encXYN 0x8 x y 0x0
  | .orReg x y => encXYN 0x8 x y 0x1
  | .andReg x y => encXYN 0x8 x y 0x2
  | .xorReg x y => encXYN 0x8 x y 0x3
  | .addReg x y => encXYN 0x8 x y 0x4
  | .sub x y => encXYN 0x8 x y 0x5
  | .shr x y => encXYN 0x8 x y 0x6
  | .subn x y => encXYN 0x8 x y 0x7
  | .shl x y => encXYN 0x8 x y 0xE
  | .sneReg x y => encXYN 0x9 x y 0x0
  | .ldI nnn => encNNN 0xA nnn
  | .jpV0 nnn => encNNN 0xB nnn
  | .rnd x kk => encXKK 0xC x kk
  | .drw x y n => encXYN 0xD x y n
  | .skp x => encXKK 0xE x 0x9E
  | .sknp x => encXKK 0xE x 0xA1
  | .ldVxDt x => encXKK 0xF x 0x07
  | .ldVxK x => encXKK 0xF x 0x0A
  | .ldDtVx x => encXKK 0xF x 0x15
  | .ldStVx x => encXKK 0xF x 0x18
  | .addI x => encXKK 0xF x 0x1E
  | .ldF x => encXKK 0xF x 0x29
  | .ldB x => encXKK 0xF x 0x33
  | .ldMemVx x => encXKK 0xF x 0x55
  | .ldVxMem x => encXKK 0xF x 0x65

/-- The two bytes of an instruction in memory order (R51). -/
def encodeBytes (i : Instr) : List Byte :=
  [(encode i).extractLsb' 8 8, (encode i).extractLsb' 0 8]

/-! ### The opcode table -/

/-- A row of R76: a word `w` selects it iff `w &&& mask = value`. -/
structure OpcodeRow where
  value : Word
  mask : Word
  deriving DecidableEq, Repr

/-- The row selects the word (R76). -/
def OpcodeRow.selects (r : OpcodeRow) (w : Word) : Bool := w &&& r.mask == r.value

/-- The row of R76 an instruction belongs to. -/
def rowOf : Instr → OpcodeRow
  | .cls => ⟨0x00E0, 0xF0FF⟩
  | .ret => ⟨0x00EE, 0xF0FF⟩
  | .jp _ => ⟨0x1000, 0xF000⟩
  | .call _ => ⟨0x2000, 0xF000⟩
  | .seImm _ _ => ⟨0x3000, 0xF000⟩
  | .sneImm _ _ => ⟨0x4000, 0xF000⟩
  | .seReg _ _ => ⟨0x5000, 0xF000⟩
  | .ldImm _ _ => ⟨0x6000, 0xF000⟩
  | .addImm _ _ => ⟨0x7000, 0xF000⟩
  | .ldReg _ _ => ⟨0x8000, 0xF00F⟩
  | .orReg _ _ => ⟨0x8001, 0xF00F⟩
  | .andReg _ _ => ⟨0x8002, 0xF00F⟩
  | .xorReg _ _ => ⟨0x8003, 0xF00F⟩
  | .addReg _ _ => ⟨0x8004, 0xF00F⟩
  | .sub _ _ => ⟨0x8005, 0xF00F⟩
  | .shr _ _ => ⟨0x8006, 0xF00F⟩
  | .subn _ _ => ⟨0x8007, 0xF00F⟩
  | .shl _ _ => ⟨0x800E, 0xF00F⟩
  | .sneReg _ _ => ⟨0x9000, 0xF000⟩
  | .ldI _ => ⟨0xA000, 0xF000⟩
  | .jpV0 _ => ⟨0xB000, 0xF000⟩
  | .rnd _ _ => ⟨0xC000, 0xF000⟩
  | .drw _ _ _ => ⟨0xD000, 0xF000⟩
  | .skp _ => ⟨0xE09E, 0xF0FF⟩
  | .sknp _ => ⟨0xE0A1, 0xF0FF⟩
  | .ldVxDt _ => ⟨0xF007, 0xF0FF⟩
  | .ldVxK _ => ⟨0xF00A, 0xF0FF⟩
  | .ldDtVx _ => ⟨0xF015, 0xF0FF⟩
  | .ldStVx _ => ⟨0xF018, 0xF0FF⟩
  | .addI _ => ⟨0xF01E, 0xF0FF⟩
  | .ldF _ => ⟨0xF029, 0xF0FF⟩
  | .ldB _ => ⟨0xF033, 0xF0FF⟩
  | .ldMemVx _ => ⟨0xF055, 0xF0FF⟩
  | .ldVxMem _ => ⟨0xF065, 0xF0FF⟩

/-- One instruction of each row, in the order of R76: rows 1 to 18. -/
def rowSamples1 : List Instr :=
  [.cls, .ret, .jp 0, .call 0, .seImm 0 0, .sneImm 0 0, .seReg 0 0, .ldImm 0 0, .addImm 0 0, .ldReg 0 0,
   .orReg 0 0, .andReg 0 0, .xorReg 0 0, .addReg 0 0, .sub 0 0, .shr 0 0, .subn 0 0, .shl 0 0]

/-- One instruction of each row, in the order of R76: rows 19 to 34. -/
def rowSamples2 : List Instr :=
  [.sneReg 0 0, .ldI 0, .jpV0 0, .rnd 0 0, .drw 0 0 0, .skp 0, .sknp 0, .ldVxDt 0, .ldVxK 0, .ldDtVx 0,
   .ldStVx 0, .addI 0, .ldF 0, .ldB 0, .ldMemVx 0, .ldVxMem 0]

/-- The opcode table of R76: 34 rows. -/
def opcodeTable : List OpcodeRow := (rowSamples1 ++ rowSamples2).map rowOf

end Sys2Proof
end

