-- ==== Sys2Proof/Machine/Font.lean ====
section
/-! DEFINITION. FONT, the parameter whose 80 bytes are in memory at 0x050..0x09F after reset (R6, R37, D24), and its
default. The model takes any table (`State.font`); only `State.reset` names the default. -/

namespace Sys2Proof.Machine

/-- A FONT table: `FONT[0]`..`FONT[79]`, sixteen glyphs of five bytes (R6, R37). -/
abbrev Font := Vector Byte 80

/-- Glyphs 0 to 7 of the default FONT (R37). -/
def font0to7 : List Byte :=
  [0xF0, 0x90, 0x90, 0x90, 0xF0,  0x20, 0x60, 0x20, 0x20, 0x70,
   0xF0, 0x10, 0xF0, 0x80, 0xF0,  0xF0, 0x10, 0xF0, 0x10, 0xF0,
   0x90, 0x90, 0xF0, 0x10, 0x10,  0xF0, 0x80, 0xF0, 0x10, 0xF0,
   0xF0, 0x80, 0xF0, 0x90, 0xF0,  0xF0, 0x10, 0x20, 0x40, 0x40]

/-- Glyphs 8 to F of the default FONT (R37). -/
def font8toF : List Byte :=
  [0xF0, 0x90, 0xF0, 0x90, 0xF0,  0xF0, 0x90, 0xF0, 0x10, 0xF0,
   0xF0, 0x90, 0xF0, 0x90, 0x90,  0xE0, 0x90, 0xE0, 0x90, 0xE0,
   0xF0, 0x80, 0x80, 0x80, 0xF0,  0xE0, 0x90, 0x90, 0x90, 0xE0,
   0xF0, 0x80, 0xF0, 0x80, 0xF0,  0xF0, 0x80, 0xF0, 0x80, 0x80]

/-- The default FONT (R37). The spec takes these bytes from general knowledge (K5): PRESUMED, log entry 4. -/
def defaultFont : Font := Vector.mk (Array.mk (font0to7 ++ font8toF)) (by decide)

end Sys2Proof.Machine
end

