-- ==== Sys2Proof/Machine/State.lean ====
section
/-! DEFINITION. The machine's state (10_state.md), plain data, and its reset value (R36). -/

namespace Sys2Proof.Machine

/-- The four error kinds (R240). Each is a report to the host, never a stop (R244). -/
inductive ErrorKind where
  | outOfBounds
  | invalidRegisterIndex
  | unknownOpcode
  | callStack
  deriving DecidableEq, Repr

/-- Why the machine stops with a fault: never. "The machine never stops or locks up on an error; every state has a
defined successor under `STEP`" (R244), and each error kind is a next state with its bit of `ERRFLAGS` set. So
the type has no constructor (log entry 14; safe: there is no stop that a claim could rest on). -/
inductive Fault where
  deriving DecidableEq, Repr

/-- Why there is no meaning for an instruction. -/
inductive Refusal where
  /-- Raised by `exec` only, in the arm of an instruction that has no meaning yet; no arm does so in this model.
  Safe: such a stop proves nothing about the hardware. -/
  | notModelled (mnemonic : String)
  deriving DecidableEq, Repr

/-- Memory as cells (address, byte): addresses strictly rising, and no cell equal to what an unlisted address
reads as (`Memory.unlisted`); the form is `Memory.wf` (log entry 8). -/
abbrev Memory := List Host.Cell

/-- The framebuffer `FB[y][x]`: 32 rows of 64 pixels, `true` = lit (R30, R180). -/
abbrev Framebuffer := Vector (Vector Bool 64) 32

/-- The State Store (R20): all state the spec gives the machine. -/
structure State where
  /-- `V[0]`..`V[15]` (R21); `V[15]` is also the flag register (R22). -/
  v : Vector Byte 16
  /-- `PC` (R23): between steps, the address of the next instruction; while an instruction executes, its
  address + 2. -/
  pc : Word
  /-- `I`, the index register, all 16 bits kept (R24). -/
  i : Word
  /-- `SP`, the number of return addresses on the stack, 0..16 (R25). -/
  sp : Fin 17
  /-- `STACK[0]`..`STACK[15]` (R26). -/
  stack : Vector Word 16
  /-- `DT`, the delay timer (R27). -/
  dt : Byte
  /-- `ST`, the sound timer (R28). -/
  st : Byte
  /-- `KEY[0]`..`KEY[15]`, `true` = pressed (R29). -/
  key : Vector Bool 16
  /-- `FB[y][x]` (R30). -/
  fb : Framebuffer
  /-- `MEM[0x000]`..`MEM[0xFFF]` (R31). -/
  mem : Memory
  /-- `ERRFLAGS` (R33): bit 0 OutOfBounds, bit 1 InvalidRegisterIndex, bit 2 UnknownOpcode, bit 3 CallStack. -/
  errflags : BitVec 4
  /-- `FONT`, a parameter of the machine and no state that changes (R6, R7, R37, D24): the table that `RESET` puts into
  memory, the same in every state of a run (log entry 23). Nothing writes it. -/
  font : Font
  /-- The model's own field, not the spec's: how many random bytes have been drawn, so that every `RND` takes a
  fresh free byte `Config.randomByte draws` (R142; DESIGN CHOICE, log entry 3). -/
  draws : Nat
  deriving DecidableEq, Repr

/-- What a meaning answers. -/
abbrev Answer := Host.Outcome State Fault Refusal

/-- The state after `RESET` of the machine whose FONT table is `font` (R36, R270). No memory cell is listed: an
unlisted address reads as R36 says. The zeros of `I`, `STACK` and `ERRFLAGS` are the spec's decisions D25 and D6
(log entry 5); `draws` is the model's own (DESIGN CHOICE 0, log entry 3). -/
def State.resetWith (font : Font) : State where
  v := Vector.replicate 16 0x00
  pc := 0x0200
  i := 0x0000
  sp := 0
  stack := Vector.replicate 16 0x0000
  dt := 0x00
  st := 0x00
  key := Vector.replicate 16 false
  fb := Vector.replicate 32 (Vector.replicate 64 false)
  mem := []
  errflags := 0b0000
  font := font
  draws := 0

/-- The state after `RESET` with the default FONT (R37; PRESUMED, log entry 4). A claim that rests on a byte of FONT
names that default by naming `State.reset`; a claim for every FONT is about `State.resetWith font`. -/
def State.reset : State := State.resetWith defaultFont

end Sys2Proof.Machine
end

