-- ==== Sys2Proof/Machine/Ops.lean ====
section
/-! DEFINITION. The named operations over memory, registers, the stack, the framebuffer and the error report. Every
meaning is made of these. -/

namespace Sys2Proof.Machine

/-! ### Memory (20_memory.md)

Callers check the bounds of R54 before any access, so no operation here meets an address above 0xFFF. -/

/-- What an address with no cell reads as: the reset contents of memory (R31, R36), the bytes of the machine's FONT at
0x050..0x09F and zero elsewhere (log entries 8 and 23). -/
def Memory.unlisted (font : Font) (a : Nat) : Byte :=
  if h : 0x050 ≤ a ∧ a ≤ 0x09F then font[a - 0x050] else 0x00

/-- What an address reads as: its cell, or the reset contents. -/
def Memory.read (m : Memory) (font : Font) (a : Nat) : Byte :=
  match m with
  | [] => Memory.unlisted font a
  | (b, v) :: m => if a = b then v else Memory.read m font a

/-- A cell put in its place in the order of addresses. -/
def Memory.insert : Memory → Nat → Byte → Memory
  | [], a, v => [(a, v)]
  | (b, w) :: m, a, v => if a < b then (a, v) :: (b, w) :: m else (b, w) :: Memory.insert m a v

/-- `MEM[a] <- v` (R9): changes the addressed byte only (R56). A byte equal to what the unlisted address reads as
leaves no cell, which keeps the canonical form. -/
def Memory.write (m : Memory) (font : Font) (a : Nat) (v : Byte) : Memory :=
  let rest := m.filter (fun c => c.1 != a)
  if v = Memory.unlisted font a then rest else Memory.insert rest a v

/-- The canonical form: addresses strictly rising, all inside 0x000..0xFFF, no cell equal to what the unlisted
address reads as (log entry 8). -/
abbrev Memory.wf (m : Memory) (font : Font) : Prop :=
  m.Pairwise (fun c d => c.1 < d.1) ∧ ∀ c ∈ m, c.1 ≤ 0xFFF ∧ c.2 ≠ Memory.unlisted font c.1

/-- Single-byte writes at ascending addresses from `a` (R52, R55). -/
def Memory.writeBytes (m : Memory) (font : Font) (a : Nat) (bytes : List Byte) : Memory :=
  match bytes with
  | [] => m
  | b :: bs => Memory.writeBytes (m.write font a b) font (a + 1) bs

/-- `MEM[a]` (R50). -/
def State.byte (s : State) (a : Nat) : Byte := s.mem.read s.font a

/-- `n` single-byte reads at ascending addresses from `a` (R52, R55). -/
def State.bytes (s : State) (a : Nat) : Nat → List Byte
  | 0 => []
  | n + 1 => s.byte a :: State.bytes s (a + 1) n

/-! ### Registers -/

/-- `V[x]` (R9, R21). -/
def State.reg (s : State) (x : RegIdx) : Byte := s.v[x]

/-- `V[x] <- b` (R9, R21). No register is hardwired. -/
def State.setReg (s : State) (x : RegIdx) (b : Byte) : State := { s with v := s.v.set x b }

/-- `PC <- a` (R9). -/
def State.jumpTo (s : State) (a : Word) : State := { s with pc := a }

/-- `PC <- (PC + 2) mod 2^16`: the advance of the fetch (R92) and, a second time, a skip (R118). -/
def State.advance (s : State) : State := s.jumpTo (s.pc + 2)

/-- `PC <- (PC - 2) mod 2^16`: back to the executing instruction (R203). -/
def State.rewind (s : State) : State := s.jumpTo (s.pc - 2)

/-- `I <- a` (R24). -/
def State.setI (s : State) (a : Word) : State := { s with i := a }

/-- `DT <- b` (R27). -/
def State.setDt (s : State) (b : Byte) : State := { s with dt := b }

/-- `ST <- b` (R28). -/
def State.setSt (s : State) (b : Byte) : State := { s with st := b }

/-- The memory becomes `m` (R31). -/
def State.setMem (s : State) (m : Memory) : State := { s with mem := m }

/-- The bytes go to memory at ascending addresses from `a` (R52). -/
def State.store (s : State) (a : Nat) (bytes : List Byte) : State := s.setMem (s.mem.writeBytes s.font a bytes)

/-- The framebuffer becomes `f` (R30). -/
def State.setFb (s : State) (f : Framebuffer) : State := { s with fb := f }

/-- `KEY[k] <- pressed` (R29). -/
def State.setKey (s : State) (k : Fin 16) (pressed : Bool) : State := { s with key := s.key.set k pressed }

/-- A random byte has been drawn (R142): the next draw is a fresh one. -/
def State.countDraw (s : State) : State := { s with draws := s.draws + 1 }

/-! ### The call stack (R25, R26) -/

/-- `STACK[SP] <- a; SP <- SP + 1` (R112). `CALL` checks `SP = 16` first; on a full stack there is no slot and
nothing changes. -/
def State.push (s : State) (a : Word) : State :=
  if h : s.sp.val < 16 then
    { s with stack := s.stack.set s.sp.val a h, sp := ⟨s.sp.val + 1, by omega⟩ }
  else s

/-- The most recent entry, `STACK[SP - 1]` (R26). `RET` checks `SP = 0` first. -/
def State.top (s : State) : Word := s.stack[s.sp.val - 1]'(by omega)

/-- `SP <- SP - 1` (R110): the popped entry stays in its slot (R26). -/
def State.pop (s : State) : State := { s with sp := ⟨s.sp.val - 1, by omega⟩ }

/-! ### The framebuffer -/

/-- `FB[y][x]`; outside the 32 x 64 grid there is no pixel, and the answer is unlit (no caller asks). -/
def Framebuffer.pixel (f : Framebuffer) (y x : Nat) : Bool :=
  if h : y < 32 ∧ x < 64 then (f[y]'h.1)[x]'h.2 else false

/-- `FB[y][x] <- FB[y][x] ^ 1` (R182). -/
def Framebuffer.flip (f : Framebuffer) (y x : Nat) : Framebuffer :=
  if h : y < 32 ∧ x < 64 then f.set y ((f[y]'h.1).set x (!(f[y]'h.1)[x]'h.2) h.2) h.1 else f

/-- All pixels unlit (R181, R36). -/
def Framebuffer.clear : Framebuffer := Vector.replicate 32 (Vector.replicate 64 false)

/-! ### Error reports (60_exceptions.md)

The hardware's only exception mechanism: no handler, no vector, no saved state (R244), hence no return (R249). -/

/-- `ERR_OUT`'s code of an error kind; 0 is "no error" (R240). -/
def ErrorKind.code : ErrorKind → Nat
  | .outOfBounds => 1
  | .invalidRegisterIndex => 2
  | .unknownOpcode => 3
  | .callStack => 4

/-- The code of a transaction's `ERR_OUT` (R229, R240). -/
def errCode : Option ErrorKind → Nat
  | none => 0
  | some k => k.code

/-- The error kind's bit of `ERRFLAGS` (R33, R240). -/
def ErrorKind.flagBit : ErrorKind → BitVec 4
  | .outOfBounds => 0b0001
  | .invalidRegisterIndex => 0b0010
  | .unknownOpcode => 0b0100
  | .callStack => 0b1000

/-- `ERRFLAGS[bit of k] <- 1` (R33, R244 (2)). -/
def State.report (s : State) (k : ErrorKind) : State := { s with errflags := s.errflags ||| k.flagBit }

/-- `raise k` (R9, R244), the one operation that takes an error: the kind's sticky bit is set and nothing else
changes; the fetch has already advanced `PC` to the next instruction, where execution goes on. -/
def raise (k : ErrorKind) (s : State) : Answer := .next (s.report k)

/-- A handler (R95, R245): its error condition, evaluated before any write; if it holds the error is reported and
none of the writes happen, else the effect is the next state. -/
def attempt (error : Option ErrorKind) (s effect : State) : Answer :=
  match error with
  | none => .next effect
  | some k => raise k s

/-! ### Fetch (R51, R91) -/

/-- The two bytes at `PC` and `PC + 1` (R51). -/
def State.fetchBytes (s : State) : List Byte := s.bytes s.pc.toNat 2

/-- Fetch, decode and dispatch (R90 to R94): the bounds check of the fetch first, then the opcode lookup (R248). -/
def fetch (s : State) : Except ErrorKind Instr :=
  if s.pc.toNat > 0xFFE then .error .outOfBounds
  else
    match decodeBytes s.fetchBytes with
    | .ok (i, _) => .ok i
    | .error _ => .error .unknownOpcode

/-- The state with the bytes of a fetch placed where the next fetch reads them. If `PC` is where nothing can be
fetched (above 0xFFE), it is set to the entry point 0x200 (log entry 7). -/
def State.placeAtFetch (s : State) (bytes : List Byte) : State :=
  let s := if s.pc.toNat > 0xFFE then s.jumpTo 0x0200 else s
  s.store s.pc.toNat bytes

end Sys2Proof.Machine
end

