-- ==== Sys2Proof/Machine/Operands.lean ====
section
/-! DEFINITION. Operand forms: the widened fields, the one addressing mode `I + k`, the values an instruction takes
from its registers, and the error conditions on operands (R240 to R246), each written once. -/

namespace Sys2Proof.Machine

/-- `zext_16(nnn)`: an absolute byte address (R73). -/
def target (nnn : Addr) : Word := nnn.setWidth 16

/-- `nnn + V[0]` (R117): at most 0x10FE, which fits 16 bits. -/
def offsetTarget (s : State) (nnn : Addr) : Word := target nnn + (s.reg 0).setWidth 16

/-- `EA = I + k` on unbounded integers, never reduced (R54, R166). -/
def State.ea (s : State) (k : Nat) : Nat := s.i.toNat + k

/-- `(I + b) mod 2^16` (R161). -/
def indexPlus (s : State) (b : Byte) : Word := s.i + b.setWidth 16

/-- `0x050 + 5 * d`, the address of glyph `d` (R162). -/
def glyphAddress (d : Byte) : Word := BitVec.ofNat 16 (0x050 + 5 * d.toNat)

/-- The decimal digits of a byte, hundreds, tens, ones, one to a byte (R163). -/
def bcdDigits (b : Byte) : List Byte :=
  [BitVec.ofNat 8 (b.toNat / 100), BitVec.ofNat 8 (b.toNat / 10 % 10), BitVec.ofNat 8 (b.toNat % 10)]

/-- `V[0]`..`V[x]`, the block that `LD [I], Vx` stores; the bound is the field `x` (R164). -/
def regBlock (s : State) (x : RegIdx) : List Byte := s.v.toList.take (x.val + 1)

/-- `V[k] <- MEM[I + k]` for `k` = 0..n-1, ascending (R165). -/
def loadRegs (s : State) : Nat → State
  | 0 => s
  | n + 1 =>
    if h : n < 16 then (loadRegs s n).setReg ⟨n, h⟩ (s.byte (s.ea n)) else loadRegs s n

/-- `V[x] mod 64`, the column a sprite starts at (R182). -/
def spriteColumn (s : State) (x : RegIdx) : Nat := (s.reg x).toNat % 64

/-- `V[y] mod 32`, the row a sprite starts at (R182). -/
def spriteRow (s : State) (y : RegIdx) : Nat := (s.reg y).toNat % 32

/-- The `n` sprite bytes at `I` (R182). -/
def spriteBytes (s : State) (n : Nat) : List Byte := s.bytes (s.ea 0) n

/-- The key slot a byte numbers, if it numbers one: the whole value counts, not its low nibble (R200). -/
def keySlot (b : Byte) : Option (Fin 16) :=
  if h : b.toNat < 16 then some ⟨b.toNat, h⟩ else none

/-- The state of the key a byte numbers; false where there is no such key (R226). -/
def State.keyAt (s : State) (b : Byte) : Bool :=
  match keySlot b with
  | some k => s.key[k]
  | none => false

/-- The lowest pressed key: the ascending scan of R203. -/
def State.lowestKey (s : State) : Option (Fin 16) := (List.finRange 16).find? (fun k => s.key[k])

/-! ### Error conditions -/

/-- `n` bytes at `I` reach outside memory (R54): `n > 0` and `I + n - 1 > 0xFFF` (R182 with its height, R163 with
3, R164 and R165 with `x + 1`). -/
def blockError (s : State) (n : Nat) : Option ErrorKind :=
  if 0 < n ∧ s.ea (n - 1) > 0xFFF then some .outOfBounds else none

/-- The value is no key number or digit: above 15 (R162, R200, R201). -/
def indexError (b : Byte) : Option ErrorKind :=
  if b.toNat > 15 then some .invalidRegisterIndex else none

/-- `CALL` with 16 entries on the stack (R112, R246). -/
def callError (s : State) : Option ErrorKind := if s.sp.val = 16 then some .callStack else none

/-- `RET` with an empty stack (R110, R246). -/
def returnError (s : State) : Option ErrorKind := if s.sp.val = 0 then some .callStack else none

end Sys2Proof.Machine
end

