-- ==== Sys2Proof/Machine/Flags.lean ====
section
/-! DEFINITION. The flag, register 15 (R22): every flag computation of the instruction set and the order in which
flag and result are written (R130). -/

namespace Sys2Proof.Machine

/-- A flag value is the byte 0x00 or 0x01 (R130 (e)). -/
def flagByte (b : Bool) : Byte := if b then 0x01 else 0x00

/-- Carry-out: the unsigned sum is above 255 (R137). -/
def carryOut (a b : Byte) : Bool := decide (a.toNat + b.toNat > 255)

/-- The strict comparison `a > b` of SUB, and of SUBN with its operands exchanged (R138, R140). -/
def notBorrow (a b : Byte) : Bool := decide (a.toNat > b.toNat)

/-- The bit SHR shifts out, bit 0 (R139). -/
def lowBit (b : Byte) : Bool := b.getLsbD 0

/-- The bit SHL shifts out, bit 7 (R141). -/
def highBit (b : Byte) : Bool := b.getLsbD 7

/-- `V[15] <- flag` (R22). -/
def State.setFlag (s : State) (flag : Bool) : State := s.setReg 15 (flagByte flag)

/-- The flag is written to `V[15]` first, the result to `V[x]` second, so for `x` = 15 the result remains
(R130 (d), D14). -/
def State.setFlagThenReg (s : State) (x : RegIdx) (flag : Bool) (result : Byte) : State :=
  (s.setFlag flag).setReg x result

end Sys2Proof.Machine
end

