-- ==== Sys2Proof/Machine/Alu.lean ====
section
/-! DEFINITION. The 8-bit ALU, register loads and random (42_alu.md). Operands are read before anything is written
(R130 (c)); arithmetic wraps modulo 256 (R130 (a)). -/

namespace Sys2Proof.Machine

/-- `LD Vx, kk` (R131). -/
def execLdImm (x : RegIdx) (kk : Byte) (s : State) : Answer := .next (s.setReg x kk)

/-- `ADD Vx, kk` (R132): no flag (C3). -/
def execAddImm (x : RegIdx) (kk : Byte) (s : State) : Answer := .next (s.setReg x (s.reg x + kk))

/-- `LD Vx, Vy`, the source's MOV (R133). -/
def execLdReg (x y : RegIdx) (s : State) : Answer := .next (s.setReg x (s.reg y))

/-- `OR Vx, Vy` (R134): `V[15]` is no flag here (R130 (f), D13). -/
def execOr (x y : RegIdx) (s : State) : Answer := .next (s.setReg x (s.reg x ||| s.reg y))

/-- `AND Vx, Vy` (R135). -/
def execAnd (x y : RegIdx) (s : State) : Answer := .next (s.setReg x (s.reg x &&& s.reg y))

/-- `XOR Vx, Vy` (R136). -/
def execXor (x y : RegIdx) (s : State) : Answer := .next (s.setReg x (s.reg x ^^^ s.reg y))

/-- `ADD Vx, Vy` (R137): the flag is the carry-out. -/
def execAddReg (x y : RegIdx) (s : State) : Answer :=
  .next (s.setFlagThenReg x (carryOut (s.reg x) (s.reg y)) (s.reg x + s.reg y))

/-- `SUB Vx, Vy` (R138): the flag is `Vx > Vy`, strictly. -/
def execSub (x y : RegIdx) (s : State) : Answer :=
  .next (s.setFlagThenReg x (notBorrow (s.reg x) (s.reg y)) (s.reg x - s.reg y))

/-- `SHR Vx, Vy` (R139): it shifts `Vy`. -/
def execShr (x y : RegIdx) (s : State) : Answer :=
  .next (s.setFlagThenReg x (lowBit (s.reg y)) (s.reg y >>> 1))

/-- `SUBN Vx, Vy` (R140): `Vy - Vx`, the flag is `Vy > Vx` (K3, D15: log entry 12). -/
def execSubn (x y : RegIdx) (s : State) : Answer :=
  .next (s.setFlagThenReg x (notBorrow (s.reg y) (s.reg x)) (s.reg y - s.reg x))

/-- `SHL Vx, Vy` (R141): it shifts `Vy`. -/
def execShl (x y : RegIdx) (s : State) : Answer :=
  .next (s.setFlagThenReg x (highBit (s.reg y)) (s.reg y <<< 1))

/-- `RND Vx, kk` (R142): one free byte is drawn (log entry 3) and masked. -/
def execRnd (x : RegIdx) (kk : Byte) (s : State) : Answer :=
  .next ((s.setReg x (Config.randomByte s.draws &&& kk)).countDraw)

end Sys2Proof.Machine
end

