-- ==== Sys2Proof/Machine/ControlFlow.lean ====
section
/-! DEFINITION. Control transfer (41_control_flow.md). Every meaning takes the state after the fetch, whose `PC` is
the instruction's address + 2 (R92). -/

namespace Sys2Proof.Machine

/-- A skip (R118): one further advance when the condition holds. -/
def skipIf (c : Bool) (s : State) : State := if c then s.advance else s

/-- `RET` (R110): `SP <- SP - 1; PC <- STACK[SP]`; CallStack when the stack is empty (D8). -/
def execRet (s : State) : Answer := attempt (returnError s) s (s.pop.jumpTo s.top)

/-- `JP nnn` (R111). -/
def execJp (nnn : Addr) (s : State) : Answer := .next (s.jumpTo (target nnn))

/-- `CALL nnn` (R112): the return address pushed is `PC`, the instruction after the call (C1); CallStack when 16
entries are on the stack (D8). -/
def execCall (nnn : Addr) (s : State) : Answer :=
  attempt (callError s) s ((s.push s.pc).jumpTo (target nnn))

/-- `SE Vx, kk` (R113). -/
def execSeImm (x : RegIdx) (kk : Byte) (s : State) : Answer := .next (skipIf (s.reg x == kk) s)

/-- `SNE Vx, kk` (R114). -/
def execSneImm (x : RegIdx) (kk : Byte) (s : State) : Answer := .next (skipIf (s.reg x != kk) s)

/-- `SE Vx, Vy` (R115). -/
def execSeReg (x y : RegIdx) (s : State) : Answer := .next (skipIf (s.reg x == s.reg y) s)

/-- `SNE Vx, Vy` (R116). -/
def execSneReg (x y : RegIdx) (s : State) : Answer := .next (skipIf (s.reg x != s.reg y) s)

/-- `JP V0, nnn` (R117): the sum is not masked (D10). -/
def execJpV0 (nnn : Addr) (s : State) : Answer := .next (s.jumpTo (offsetTarget s nnn))

end Sys2Proof.Machine
end

