-- ==== Sys2Proof/Machine/Display.lean ====
section
/-! DEFINITION. Clear screen and draw sprite (44_display.md), with the collision detector. Orientation as R180: row
0 at the top, column 0 at the left, bit 7 of a sprite byte leftmost (K4, D17: log entry 12). -/

namespace Sys2Proof.Machine

/-- The framebuffer and whether a lit pixel has been turned unlit so far in this instruction. -/
structure Canvas where
  fb : Framebuffer
  hit : Bool
  deriving DecidableEq, Repr

/-- One sprite bit on row `row`, column `col` (R182): clipped at both edges (D16); a 1 bit is XORed in, and `hit` is
set if the pixel was lit. -/
def Canvas.drawBit (c : Canvas) (row col : Nat) (bit : Bool) : Canvas :=
  if row ≤ 31 ∧ col ≤ 63 ∧ bit = true then ⟨c.fb.flip row col, c.hit || c.fb.pixel row col⟩ else c

/-- The first `n` columns of a sprite byte, from bit 7 rightwards (R182). -/
def Canvas.drawColumns (c : Canvas) (row px : Nat) (b : Byte) : Nat → Canvas
  | 0 => c
  | n + 1 => (Canvas.drawColumns c row px b n).drawBit row (px + n) (b.getLsbD (7 - n))

/-- The sprite bytes, one a row, downwards from row `row` (R180, R182). -/
def Canvas.drawRows (c : Canvas) (row px : Nat) : List Byte → Canvas
  | [] => c
  | b :: bs => Canvas.drawRows (c.drawColumns row px b 8) (row + 1) px bs

/-- The sprite of `DRW Vx, Vy, n` drawn on the framebuffer, starting with no hit (R182). -/
def drawSprite (s : State) (x y : RegIdx) (n : Nat) : Canvas :=
  (Canvas.mk s.fb false).drawRows (spriteRow s y) (spriteColumn s x) (spriteBytes s n)

/-- `CLS` (R181): `V[15]` is unchanged. -/
def execCls (s : State) : Answer := .next (s.setFb Framebuffer.clear)

/-- `DRW Vx, Vy, n` (R182): the bounds check covers all `n` bytes and comes first (D18); the flag is written last. -/
def execDrw (x y : RegIdx) (n : BitVec 4) (s : State) : Answer :=
  attempt (blockError s n.toNat) s
    ((s.setFb (drawSprite s x y n.toNat).fb).setFlag (drawSprite s x y n.toNat).hit)

end Sys2Proof.Machine
end

