-- ==== Sys2Proof/Machine/IndexMemory.lean ====
section
/-! DEFINITION. The index register and memory instructions (43_index_memory.md). None of them changes `PC`; the block
forms leave `I` as it is (D21). -/

namespace Sys2Proof.Machine

/-- `LD I, nnn` (R160). -/
def execLdI (nnn : Addr) (s : State) : Answer := .next (s.setI (target nnn))

/-- `ADD I, Vx` (R161): 16 bits are kept, no flag (D12). -/
def execAddI (x : RegIdx) (s : State) : Answer := .next (s.setI (indexPlus s (s.reg x)))

/-- `LD F, Vx` (R162): `I` is overwritten (C5, D20); a digit above 15 is an InvalidRegisterIndex error (D19). -/
def execLdF (x : RegIdx) (s : State) : Answer :=
  attempt (indexError (s.reg x)) s (s.setI (glyphAddress (s.reg x)))

/-- `LD B, Vx` (R163). -/
def execLdB (x : RegIdx) (s : State) : Answer :=
  attempt (blockError s 3) s (s.store (s.ea 0) (bcdDigits (s.reg x)))

/-- `LD [I], Vx` (R164). -/
def execLdMemVx (x : RegIdx) (s : State) : Answer :=
  attempt (blockError s (x.val + 1)) s (s.store (s.ea 0) (regBlock s x))

/-- `LD Vx, [I]` (R165). -/
def execLdVxMem (x : RegIdx) (s : State) : Answer :=
  attempt (blockError s (x.val + 1)) s (loadRegs s (x.val + 1))

end Sys2Proof.Machine
end

