-- ==== Sys2Proof/Machine/KeypadTimers.lean ====
section
/-! DEFINITION. Keypad and timer instructions (45_keypad_timers.md). -/

namespace Sys2Proof.Machine

/-- `SKP Vx` (R200): a key number above 15 is an InvalidRegisterIndex error with no skip (D32). -/
def execSkp (x : RegIdx) (s : State) : Answer :=
  attempt (indexError (s.reg x)) s (skipIf (s.keyAt (s.reg x)) s)

/-- `SKNP Vx` (R201): a key number above 15 does not count as "not pressed". -/
def execSknp (x : RegIdx) (s : State) : Answer :=
  attempt (indexError (s.reg x)) s (skipIf (!s.keyAt (s.reg x)) s)

/-- `LD Vx, DT` (R202). -/
def execLdVxDt (x : RegIdx) (s : State) : Answer := .next (s.setReg x s.dt)

/-- `LD Vx, K` (R203): the lowest pressed key; with none, `PC` goes back to this instruction, and the step is
complete (D22, R277). -/
def execLdVxK (x : RegIdx) (s : State) : Answer :=
  match s.lowestKey with
  | some k => .next (s.setReg x (BitVec.ofNat 8 k.val))
  | none => .next s.rewind

/-- `LD DT, Vx` (R204). -/
def execLdDtVx (x : RegIdx) (s : State) : Answer := .next (s.setDt (s.reg x))

/-- `LD ST, Vx` (R205). -/
def execLdStVx (x : RegIdx) (s : State) : Answer := .next (s.setSt (s.reg x))

end Sys2Proof.Machine
end

