-- ==== Sys2Proof/Machine/Errors.lean ====
section
/-! DEFINITION. `ERR_OUT` of a step (R229, R240, R248): which error, if any, the step of a state reports. It is an
output and no state (R33; log entry 2), so it is a function of the state before the step; it is made of the same
conditions that the meanings test. -/

namespace Sys2Proof.Machine

/-- The error of a handler, from the state after the fetch advance (R241, R242, R246); at most one condition for
each instruction (R248). -/
def handlerError (i : Instr) (s : State) : Option ErrorKind :=
  match i with
  | .ret => returnError s
  | .call _ => callError s
  | .drw _ _ n => blockError s n.toNat
  | .skp x => indexError (s.reg x)
  | .sknp x => indexError (s.reg x)
  | .ldF x => indexError (s.reg x)
  | .ldB _ => blockError s 3
  | .ldMemVx x => blockError s (x.val + 1)
  | .ldVxMem x => blockError s (x.val + 1)
  | .cls | .jp _ | .seImm _ _ | .sneImm _ _ | .seReg _ _ | .ldImm _ _ | .addImm _ _ | .ldReg _ _ | .orReg _ _
  | .andReg _ _ | .xorReg _ _ | .addReg _ _ | .sub _ _ | .shr _ _ | .subn _ _ | .shl _ _ | .sneReg _ _
  | .ldI _ | .jpV0 _ | .rnd _ _ | .ldVxDt _ | .ldVxK _ | .ldDtVx _ | .ldStVx _ | .addI _ => none

/-- `ERR_OUT` of the `STEP` of a state, in the order of R248: fetch bounds, dispatch, the handler's condition. -/
def stepError (s : State) : Option ErrorKind :=
  match fetch s with
  | .error k => some k
  | .ok i => handlerError i s.advance

end Sys2Proof.Machine
end

