-- ==== Sys2Proof/Machine/Step.lean ====
section
/-! DEFINITION. `STEP` (R90, R223): fetch, advance `PC` by two, and run the handler, or report the error of the fetch
or of the dispatch. -/

namespace Sys2Proof.Machine

/-- One step. `PC` advances by 2 for a bad fetch and an unknown word as for a good one (R91, R96). -/
def step (s : State) : Host.Outcome State Fault Refusal :=
  match fetch s with
  | .error k => raise k s.advance
  | .ok i => exec i s.advance

/-- The state with an instruction word stored where the next fetch reads it, high byte first (R51); it stands for
`LOAD` (log entry 7). -/
def State.withFetchWord (s : State) (nbits w : Nat) : State :=
  let word : Word := BitVec.ofNat 16 (w % 2 ^ nbits)
  s.placeAtFetch [word.extractLsb' 8 8, word.extractLsb' 0 8]

end Sys2Proof.Machine
end

