-- ==== Sys2Proof/Machine/Transactions.lean ====
section
/-! DEFINITION. The host's transactions and reads (50_host_interface.md). `STEP` is `step`; the others act on the
state between steps. A schedule of the host is any list of transactions (R59 (a), R220, D28: log entry 1). -/

namespace Sys2Proof.Machine

/-- `RESET` (R221): every element of state at its reset value, whatever it was, with the machine's own FONT in memory
(R37). Only the count of draws goes on: a reset gives no promise about the random source (R36, log entry 3). -/
def resetTransaction (s : State) : State := { State.resetWith s.font with draws := s.draws }

/-- The error of `LOAD`: the image would reach past 0xFFF (R222, R241 (f)). -/
def loadError (bytes : List Byte) : Option ErrorKind :=
  if 0x200 + bytes.length > 0x1000 then some .outOfBounds else none

/-- `LOAD(bytes, len)` with `len` the number of bytes (R222; log entry 6). -/
def load (bytes : List Byte) (s : State) : Answer :=
  attempt (loadError bytes) s (s.store 0x200 bytes)

/-- A timer's decrement, "floored at zero, never wrapping negative" (R27). -/
def countDown (b : Byte) : Byte := if b.toNat > 0 then b - 1 else b

/-- `TICK` (R224): both timers, nothing else. -/
def tick (s : State) : State := (s.setDt (countDown s.dt)).setSt (countDown s.st)

/-- The error of a host key index: above 15 (R225, R226, R242 (c)). -/
def hostKeyError (k : Nat) : Option ErrorKind := if k > 15 then some .invalidRegisterIndex else none

/-- `SETKEY(k, pressed)` (R225). -/
def setKeyTransaction (k : Nat) (pressed : Bool) (s : State) : Answer :=
  attempt (hostKeyError k) s (if h : k < 16 then s.setKey ⟨k, h⟩ pressed else s)

/-- What `ISKEY(k)` returns: `KEY[k]`, and false for an index above 15 (R226). -/
def isKeyValue (k : Nat) (s : State) : Bool := if h : k < 16 then s.key[k] else false

/-- What `ISKEY(k)` does to the state: nothing, but for the error bit when `k > 15` (R226). -/
def isKeyTransaction (k : Nat) (s : State) : Answer := attempt (hostKeyError k) s s

/-- `FB_READ(x, y)` (R227); the port does not exist for arguments outside the grid (log entry 9). -/
def fbRead (x : Fin 64) (y : Fin 32) (s : State) : Bool := s.fb.pixel y.val x.val

/-- `TONE`: `ST > 0` (R228). -/
def tone (s : State) : Bool := decide (s.st.toNat > 0)

/-- `ERR_READ` (R229). -/
def errRead (s : State) : BitVec 4 := s.errflags

/-- What the host can do that changes state (R220; `ISKEY` because of its error bit). -/
inductive Transaction where
  | reset
  | load (bytes : List Byte)
  | step
  | tick
  | setKey (k : Nat) (pressed : Bool)
  | isKey (k : Nat)
  deriving DecidableEq, Repr

/-- The effect of a transaction on the state. -/
def perform (t : Transaction) (s : State) : Answer :=
  match t with
  | .reset => .next (resetTransaction s)
  | .load bytes => load bytes s
  | .step => step s
  | .tick => .next (tick s)
  | .setKey k pressed => setKeyTransaction k pressed s
  | .isKey k => isKeyTransaction k s

/-- `ERR_OUT` of a transaction from a state (R229); `RESET` and `TICK` raise none (R220, R224). -/
def errOut (t : Transaction) (s : State) : Option ErrorKind :=
  match t with
  | .reset => none
  | .load bytes => loadError bytes
  | .step => stepError s
  | .tick => none
  | .setKey k _ => hostKeyError k
  | .isKey k => hostKeyError k

/-- A schedule: the transactions one after another in the order the host chose (R59 (a), R220). -/
def runSchedule : List Transaction → State → Answer
  | [], s => .next s
  | t :: ts, s =>
    match perform t s with
    | .next s' => runSchedule ts s'
    | .fault r => .fault r
    | .refused r => .refused r

end Sys2Proof.Machine
end

