-- ==== Sys2Proof/Safety.lean ====
section
/-! DEFINITION. The terms in which claims are stated: the invariant, runs without a reported error, the end of a run,
the waiting machine, and what a transaction leaves unchanged. -/

namespace Sys2Proof.Machine

/-- The invariant of the model: the memory is in canonical form. The ranges of R39 (`SP` in 0..16, bytes, 16-bit
values, one-bit pixels) are in the fields' types. -/
def State.wf (s : State) : Prop := s.mem.wf s.font

/-- No error was ever reported since reset: the premise `ERRFLAGS` exists for (R33). -/
def State.noErrorReported (s : State) : Prop := s.errflags = 0

/-- The program has ended in the sense of R278 (the convention of the spec's programs, D31): `PC = A <= 0xFFE` and
the bytes there encode `JP A`. -/
def State.ended (s : State) : Prop :=
  s.pc.toNat ≤ 0xFFE ∧ ∃ nnn : Addr, fetch s = .ok (.jp nnn) ∧ nnn.toNat = s.pc.toNat

/-- The next instruction is `LD Vx, K` and no key is pressed (R203, R277). -/
def State.waiting (s : State) : Prop :=
  (∃ x, fetch s = .ok (.ldVxK x)) ∧ ∀ k : Fin 16, s.key[k] = false

/-- The parts of the state, the rows of R38 with `FB`, the flag register being one of `V`, and the parameter FONT. -/
inductive Part where
  | v | pc | i | sp | stack | dt | st | key | fb | mem | errflags | font | draws
  deriving DecidableEq, Repr

/-- The part is the same in both states. Registers and memory are compared by what is read from them. -/
def Part.same (p : Part) (s t : State) : Prop :=
  match p with
  | .v => ∀ r : RegIdx, t.reg r = s.reg r
  | .pc => t.pc = s.pc
  | .i => t.i = s.i
  | .sp => t.sp = s.sp
  | .stack => ∀ k : Fin 16, t.stack[k] = s.stack[k]
  | .dt => t.dt = s.dt
  | .st => t.st = s.st
  | .key => ∀ k : Fin 16, t.key[k] = s.key[k]
  | .fb => ∀ y x : Nat, t.fb.pixel y x = s.fb.pixel y x
  | .mem => ∀ a : Nat, t.byte a = s.byte a
  | .errflags => t.errflags = s.errflags
  | .font => t.font = s.font
  | .draws => t.draws = s.draws

/-- Every part of the state but those listed is unchanged from `s` to `t`: the frame of a transaction. -/
def keepsAllBut (changed : List Part) (s t : State) : Prop := ∀ p : Part, p ∉ changed → p.same s t

/-- The drawn window of R182 and R183: whether the sprite with bytes `bs`, placed with its top row at `r` and its left
column at `px`, holds a 1 bit for the pixel in row `y`, column `x` of the grid. Sprite row `k` is byte `k`, sprite
column `c` is bit `7 - c`; what falls past an edge is no pixel of the grid. -/
def windowBit (r px : Nat) (bs : List Byte) (y x : Nat) : Bool :=
  decide (r ≤ y ∧ y < 32 ∧ x < 64 ∧ px ≤ x ∧ x - px < 8) && (bs.getD (y - r) 0).getLsbD (7 - (x - px))

/-! ### Reports, in the terms of R240 and R244 -/

/-- The number of an error kind's bit in `ERRFLAGS` (R33, R240). -/
def ErrorKind.bit : ErrorKind → Nat
  | .outOfBounds => 0
  | .invalidRegisterIndex => 1
  | .unknownOpcode => 2
  | .callStack => 3

/-- From `s` to `t` the error `k` is reported: its bit of `ERRFLAGS` is 1 and the other bits are kept, and beside
`ERRFLAGS` only the listed parts may differ (R244). -/
def reports (k : ErrorKind) (others : List Part) (s t : State) : Prop :=
  (∀ j : Fin 4, t.errflags.getLsbD j.val = (s.errflags.getLsbD j.val || decide (j.val = k.bit))) ∧
    keepsAllBut (.errflags :: others) s t

/-- The next step of `s` fetches the instruction `i`: `PC` is at most 0xFFE and the bytes at `PC` and `PC + 1` decode
to it (R90, R91). -/
def State.fetches (s : State) (i : Instr) : Prop :=
  s.pc.toNat ≤ 0xFFE ∧ decodeBytes [s.byte s.pc.toNat, s.byte (s.pc.toNat + 1)] = .ok (i, [])

/-- The instructions that define a flag, and so write `V[15]` implicitly (R22). -/
def definesFlag : Instr → Bool
  | .addReg _ _ | .sub _ _ | .subn _ _ | .shr _ _ | .shl _ _ | .drw _ _ _ => true
  | .cls | .ret | .jp _ | .call _ | .seImm _ _ | .sneImm _ _ | .seReg _ _ | .ldImm _ _ | .addImm _ _ | .ldReg _ _
  | .orReg _ _ | .andReg _ _ | .xorReg _ _ | .sneReg _ _ | .ldI _ | .jpV0 _ | .rnd _ _ | .skp _ | .sknp _
  | .ldVxDt _ | .ldVxK _ | .ldDtVx _ | .ldStVx _ | .addI _ | .ldF _ | .ldB _ | .ldMemVx _ | .ldVxMem _ => false

/-- The instruction names register `r` as a destination: `Vx` of the ALU, load, random, timer-read and key-wait
instructions, `V0`..`Vx` of the block load (R38). -/
def namesDestination (i : Instr) (r : RegIdx) : Bool :=
  match i with
  | .ldImm x _ | .addImm x _ | .rnd x _ | .ldVxDt x | .ldVxK x => r == x
  | .ldReg x _ | .orReg x _ | .andReg x _ | .xorReg x _ | .addReg x _ | .sub x _ | .shr x _ | .subn x _
  | .shl x _ => r == x
  | .ldVxMem x => decide (r.val ≤ x.val)
  | .cls | .ret | .jp _ | .call _ | .seImm _ _ | .sneImm _ _ | .seReg _ _ | .sneReg _ _ | .ldI _ | .jpV0 _
  | .drw _ _ _ | .skp _ | .sknp _ | .ldDtVx _ | .ldStVx _ | .addI _ | .ldF _ | .ldB _ | .ldMemVx _ => false

end Sys2Proof.Machine
end

