-- ==== Sys2Proof/WellFormed.lean ====
section
/-! DEFINITION. Which words and programs an assembler and a loader may produce. Every `Instr` is well-formed: the
operand ranges of R73 are in the operands' types, so no term of `Instr` has a register index above 15. What can
be ill-formed is a word (unknown, or a spelling with ignored bits set) and a program image (too long). -/

namespace Sys2Proof

/-- The word stands for an instruction (R78): it is no unknown word. -/
def knownWord (w : Word) : Bool := (decodeWord w).isSome

/-- The bits a word's row ignores are zero (R77): "the canonical spelling, which an assembler must emit". -/
def canonicalWord (w : Word) : Bool :=
  match decodeWord w with
  | some i => encode i == w
  | none => false

/-- The bits of a word that take part in no key and no operand of the instruction (R77): bits 11:8 of `CLS` and `RET`,
bits 3:0 of `SE Vx, Vy` and `SNE Vx, Vy`. -/
def ignoredBits : Instr → Word
  | .cls | .ret => 0x0F00
  | .seReg _ _ | .sneReg _ _ => 0x000F
  | .jp _ | .call _ | .seImm _ _ | .sneImm _ _ | .ldImm _ _ | .addImm _ _ | .ldReg _ _ | .orReg _ _ | .andReg _ _
  | .xorReg _ _ | .addReg _ _ | .sub _ _ | .shr _ _ | .subn _ _ | .shl _ _ | .ldI _ | .jpV0 _ | .rnd _ _
  | .drw _ _ _ | .skp _ | .sknp _ | .ldVxDt _ | .ldVxK _ | .ldDtVx _ | .ldStVx _ | .addI _ | .ldF _ | .ldB _
  | .ldMemVx _ | .ldVxMem _ => 0x0000

/-- A program image the loader accepts: `0x200 + len <= 0x1000` (R222). -/
def loadableImage (bytes : List Byte) : Bool := decide (0x200 + bytes.length ≤ 0x1000)

/-- A program of whole instruction words, each in canonical spelling, that the loader accepts. -/
def wellFormedProgram (words : List Word) : Bool :=
  words.all canonicalWord && decide (0x200 + 2 * words.length ≤ 0x1000)

end Sys2Proof
end

