-- ==== Sys2Proof/Certificates/Slice0/Obligations.lean ====
section
/-! DEFINITION. The statements for the provers. In a statement about `exec i s`, `s` is the state after the fetch, so
`s.pc` is the instruction's address + 2 (R92). "D<n>" is a decision of the spec's own (92_eei_decisions.md); a
statement that rests on one, or on a passage the spec marks as general knowledge (K<n>), has basis 'derived'. -/

open Sys2Proof Sys2Proof.Machine

/-! ### Reset and the host's transactions -/

/-- R36: every element of state after reset, for every FONT (R6, R37); `State.reset` is the state with the default FONT
(log entry 4). The zeros of `I` and `STACK` are the spec's decision D25 and that of `ERRFLAGS` D6 (log entry 5). -/
def Obligations.ResetGivesTheStatedValues : Prop :=
  State.reset = State.resetWith defaultFont ∧
  ∀ font : Font, let s := State.resetWith font
    (∀ r : RegIdx, s.reg r = 0) ∧ s.pc = 0x200 ∧ s.i = 0 ∧ s.sp.val = 0 ∧
    (∀ k : Fin 16, s.stack[k] = 0) ∧ s.dt = 0 ∧ s.st = 0 ∧ (∀ k : Fin 16, s.key[k] = false) ∧
    (∀ y x : Nat, y < 32 → x < 64 → s.fb.pixel y x = false) ∧
    (∀ k : Fin 80, s.byte (0x050 + k.val) = font[k]) ∧
    (∀ a : Nat, a ≤ 0xFFF → a < 0x050 ∨ 0x09F < a → s.byte a = 0) ∧
    s.errflags = 0

/-- The invariant holds at reset, for every FONT: no cell is listed (log entry 8). -/
def Obligations.ResetMeetsTheInvariant : Prop := State.reset.wf ∧ ∀ font : Font, (State.resetWith font).wf

/-- R221, H10: `RESET` from any state gives the reset state of the machine's FONT. The count of draws is the model's own
and goes on (log entry 3); that RESET may be repeated is the spec's D25. -/
def Obligations.ResetTransactionGivesTheResetState : Prop :=
  ∀ s : State, ∃ t, perform .reset s = .next t ∧ keepsAllBut [.draws] (State.resetWith s.font) t ∧
    errOut .reset s = none

/-- R222: `LOAD` writes the bytes from 0x200 and nothing else, or reports OutOfBounds and writes nothing (D26; the
pair of bytes and length is one list, log entry 6). -/
def Obligations.LoadWritesTheProgramOrNothing : Prop :=
  ∀ (bytes : List Byte) (s : State),
    (bytes.length ≤ 3584 → ∃ t, perform (.load bytes) s = .next t ∧
      (∀ (k : Nat) (h : k < bytes.length), t.byte (0x200 + k) = bytes[k]) ∧
      (∀ a : Nat, a < 0x200 ∨ 0x200 + bytes.length ≤ a → t.byte a = s.byte a) ∧
      keepsAllBut [.mem] s t ∧ errOut (.load bytes) s = none) ∧
    (bytes.length > 3584 → ∃ t, perform (.load bytes) s = .next t ∧ reports .outOfBounds [] s t ∧
      errOut (.load bytes) s = some .outOfBounds)

/-- R224: in a `TICK` both timers go down by one, clamped at zero (the subtraction is on natural numbers); nothing else
changes and no error is raised; and the core never ticks by itself: a step changes `DT` or `ST` only if it executes
`LD DT, Vx` or `LD ST, Vx`. -/
def Obligations.TickDecrementsBothTimersClampedAtZero : Prop :=
  (∀ s : State, ∃ t, perform .tick s = .next t ∧ t.dt.toNat = s.dt.toNat - 1 ∧ t.st.toNat = s.st.toNat - 1 ∧
    keepsAllBut [.dt, .st] s t ∧ errOut .tick s = none) ∧
  (∀ s t : State, step s = .next t →
    (t.dt ≠ s.dt → ∃ x, s.fetches (.ldDtVx x)) ∧ (t.st ≠ s.st → ∃ x, s.fetches (.ldStVx x)))

/-- R280: after `k` ticks with nothing between, a timer that held `v` holds `max (v - k) 0`. -/
def Obligations.TimerAfterManyTicks : Prop :=
  ∀ (k : Nat) (s : State), ∃ t, runSchedule (List.replicate k .tick) s = .next t ∧
    t.dt.toNat = s.dt.toNat - k ∧ t.st.toNat = s.st.toNat - k ∧ keepsAllBut [.dt, .st] s t

/-- R225: one key slot takes the value, the others keep theirs; an index above 15 is InvalidRegisterIndex and no slot
changes (D27). -/
def Obligations.SetKeySetsOneSlot : Prop :=
  ∀ (pressed : Bool) (s : State),
    (∀ k : Fin 16, ∃ t, perform (.setKey k.val pressed) s = .next t ∧
      (∀ j : Fin 16, t.key[j] = if j = k then pressed else s.key[j]) ∧ keepsAllBut [.key] s t ∧
      errOut (.setKey k.val pressed) s = none) ∧
    (∀ k : Nat, k > 15 → ∃ t, perform (.setKey k pressed) s = .next t ∧ reports .invalidRegisterIndex [] s t ∧
      errOut (.setKey k pressed) s = some .invalidRegisterIndex)

/-- R226, R227: what the host's reads answer. `ISKEY` above 15 answers false and reports InvalidRegisterIndex (D27);
`FB_READ(x, y)` is the pixel of column `x` in row `y`. -/
def Obligations.HostReadsAnswerFromTheState : Prop :=
  ∀ s : State,
    (∀ k : Fin 16, isKeyValue k.val s = s.key[k] ∧
      ∃ t, perform (.isKey k.val) s = .next t ∧ keepsAllBut [] s t ∧ errOut (.isKey k.val) s = none) ∧
    (∀ k : Nat, k > 15 → isKeyValue k s = false ∧
      ∃ t, perform (.isKey k) s = .next t ∧ reports .invalidRegisterIndex [] s t ∧
        errOut (.isKey k) s = some .invalidRegisterIndex) ∧
    (∀ (x : Fin 64) (y : Fin 32), fbRead x y s = (s.fb[y])[x])

/-! ### The step -/

/-- R90: a step whose fetch decodes to `i` is `exec i` on the state with `PC` advanced by 2. (The byte order of the
fetch is general knowledge, K2: log entry 10.) -/
def Obligations.StepRunsTheDecodedInstruction : Prop :=
  ∀ (s : State) (i : Instr), s.fetches i → step s = exec i { s with pc := s.pc + 2 }

/-- R96: an unknown word is reported and is a no-op advance of `PC` (the code 3 and the bit of `ERRFLAGS` are the spec's
decision D6). -/
def Obligations.UnknownWordIsReportedAndPassed : Prop :=
  ∀ s : State, s.pc.toNat ≤ 0xFFE →
    decodeBytes [s.byte s.pc.toNat, s.byte (s.pc.toNat + 1)] = .error .unknownWord →
    ∃ t, step s = .next t ∧ t.pc = s.pc + 2 ∧ reports .unknownOpcode [.pc] s t ∧
      errOut .step s = some .unknownOpcode ∧ errCode (errOut .step s) = 3

/-- R91: with `PC` above 0xFFE no instruction executes, OutOfBounds is reported and `PC` advances by 2 modulo 2^16
(the spec's decision D10). -/
def Obligations.FetchOutsideMemoryIsReported : Prop :=
  ∀ s : State, s.pc.toNat > 0xFFE →
    ∃ t, step s = .next t ∧ t.pc.toNat = (s.pc.toNat + 2) % 65536 ∧ reports .outOfBounds [.pc] s t ∧
      errOut .step s = some .outOfBounds ∧ errCode (errOut .step s) = 1

/-- R244, R97, R277: nothing stops the machine: every transaction from every state has a next state. -/
def Obligations.EveryTransactionAnswersNext : Prop :=
  ∀ (tr : Transaction) (s : State), ∃ t, perform tr s = .next t

/-- R244: the effect of `raise K`: in a step the bit of `K` is set, `PC` is the failing instruction's address + 2 and
nothing else changes; in `LOAD`, `SETKEY` and `ISKEY` the bit is set and nothing else changes; and every state has a
successor under `STEP` (`ERRFLAGS` is the spec's decision D6, that nothing else is written its D7). -/
def Obligations.ReportedErrorChangesOnlyPcAndErrflags : Prop :=
  (∀ (s : State) (k : ErrorKind), errOut .step s = some k →
    ∃ t, perform .step s = .next t ∧ t.pc = s.pc + 2 ∧ reports k [.pc] s t) ∧
  (∀ (tr : Transaction) (s : State) (k : ErrorKind), tr ≠ .step → errOut tr s = some k →
    ∃ t, perform tr s = .next t ∧ reports k [] s t) ∧
  (∀ s : State, ∃ t, perform .step s = .next t)

/-- R33: `ERRFLAGS` is sticky: after any transaction but `RESET` a bit is 1 exactly if it was 1 before or the
transaction's `ERR_OUT` is the error of that bit (the register is the spec's decision D6). -/
def Obligations.ErrflagsAccumulateTheReports : Prop :=
  ∀ (tr : Transaction) (s t : State), tr ≠ .reset → perform tr s = .next t →
    ∀ k : ErrorKind, t.errflags.getLsbD k.bit = (s.errflags.getLsbD k.bit || decide (errOut tr s = some k))

/-- R241: every cause of OutOfBounds, and no other (the fetch's is the spec's decision D10, the height in that of `DRW`
D18, that of `LOAD` D26). -/
def Obligations.OutOfBoundsHasExactlyTheseCauses : Prop :=
  (∀ s : State, errOut .step s = some .outOfBounds ↔
    s.pc.toNat > 0xFFE ∨
    (∃ x y n, s.fetches (.drw x y n) ∧ n.toNat > 0 ∧ s.i.toNat + n.toNat - 1 > 0xFFF) ∨
    (∃ x, s.fetches (.ldB x) ∧ s.i.toNat + 2 > 0xFFF) ∨
    (∃ x : RegIdx, s.fetches (.ldMemVx x) ∧ s.i.toNat + x.val > 0xFFF) ∨
    (∃ x : RegIdx, s.fetches (.ldVxMem x) ∧ s.i.toNat + x.val > 0xFFF)) ∧
  (∀ (bytes : List Byte) (s : State), errOut (.load bytes) s = some .outOfBounds ↔ bytes.length > 3584) ∧
  (∀ (tr : Transaction) (s : State), errOut tr s = some .outOfBounds → tr = .step ∨ ∃ bytes, tr = .load bytes)

/-- R242: every cause of InvalidRegisterIndex, and no other (the kind for a digit index is the spec's D19, those of
the host's indexes D27). -/
def Obligations.InvalidRegisterIndexHasExactlyTheseCauses : Prop :=
  (∀ s : State, errOut .step s = some .invalidRegisterIndex ↔
    ∃ x, (s.fetches (.skp x) ∨ s.fetches (.sknp x) ∨ s.fetches (.ldF x)) ∧ (s.reg x).toNat > 15) ∧
  (∀ (tr : Transaction) (s : State), tr ≠ .step →
    (errOut tr s = some .invalidRegisterIndex ↔
      ∃ k : Nat, k > 15 ∧ (tr = .isKey k ∨ ∃ pressed, tr = .setKey k pressed)))

/-- R243: UnknownOpcode is reported exactly when the fetched word matches no row of the opcode table (the byte order is
general knowledge, K2: log entry 10; the table's numbers K1: log entry 11). -/
def Obligations.UnknownOpcodeHasExactlyThisCause : Prop :=
  (∀ s : State, errOut .step s = some .unknownOpcode ↔
    s.pc.toNat ≤ 0xFFE ∧ ∀ row ∈ opcodeTable,
      row.selects (BitVec.ofNat 16 (256 * (s.byte s.pc.toNat).toNat + (s.byte (s.pc.toNat + 1)).toNat))
        = false) ∧
  (∀ (tr : Transaction) (s : State), errOut tr s = some .unknownOpcode → tr = .step)

/-- R246: CallStack is reported exactly by a `CALL` at `SP = 16` and a `RET` at `SP = 0` (the spec's decision D8). -/
def Obligations.CallStackHasExactlyTheseCauses : Prop :=
  (∀ s : State, errOut .step s = some .callStack ↔
    (∃ nnn, s.fetches (.call nnn) ∧ s.sp.val = 16) ∨ (s.fetches .ret ∧ s.sp.val = 0)) ∧
  (∀ (tr : Transaction) (s : State), errOut tr s = some .callStack → tr = .step)

/-- The invariant is kept by every step: memory stays in canonical form and inside 0x000..0xFFF, so no instruction
writes outside memory (R54; the form is the model's, log entry 8). -/
def Obligations.StepKeepsTheInvariant : Prop :=
  ∀ s t : State, s.wf → step s = .next t → t.wf

/-- Every schedule of the host runs to its end and keeps the invariant (R59, R220, R244; log entries 1 and 8). -/
def Obligations.EveryScheduleRunsAndKeepsTheInvariant : Prop :=
  ∀ (ts : List Transaction) (s : State), s.wf → ∃ t, runSchedule ts s = .next t ∧ t.wf

/-- R29, R231: `KEY` is changed by the host only, by `SETKEY` or `RESET`; and beside `RESET` and `STEP` the host reaches
no more than the timers (by `TICK`), the keys, memory (by `LOAD`) and the error bits: never a register, `I`, `PC`, the
stack or the framebuffer. -/
def Obligations.HostReachesOnlyItsOwnPorts : Prop :=
  ∀ (tr : Transaction) (s t : State), perform tr s = .next t →
    ((∃ k : Fin 16, t.key[k] ≠ s.key[k]) → tr = .reset ∨ ∃ k pressed, tr = .setKey k pressed) ∧
    (tr ≠ .reset → tr ≠ .step → keepsAllBut [.dt, .st, .key, .mem, .errflags] s t) ∧
    ((∃ a : Nat, t.byte a ≠ s.byte a) → tr = .reset ∨ tr = .step ∨ ∃ bytes, tr = .load bytes) ∧
    (t.dt ≠ s.dt ∨ t.st ≠ s.st → tr = .reset ∨ tr = .step ∨ tr = .tick)

/-- R38: which instructions change the index register, the stack, the framebuffer and memory, and that only `RND`
draws a byte (R142; the count is the model's own, log entry 3). -/
def Obligations.OnlyTheListedInstructionsWriteEachPart : Prop :=
  ∀ s t : State, step s = .next t →
    (t.i ≠ s.i → ∃ i, s.fetches i ∧ ((∃ nnn, i = .ldI nnn) ∨ (∃ x, i = .addI x) ∨ ∃ x, i = .ldF x)) ∧
    (t.sp ≠ s.sp → s.fetches .ret ∨ ∃ nnn, s.fetches (.call nnn)) ∧
    (t.stack ≠ s.stack → ∃ nnn, s.fetches (.call nnn)) ∧
    (t.fb ≠ s.fb → s.fetches .cls ∨ ∃ x y n, s.fetches (.drw x y n)) ∧
    (t.mem ≠ s.mem → ∃ x, s.fetches (.ldB x) ∨ s.fetches (.ldMemVx x)) ∧
    (t.draws ≠ s.draws → ∃ x kk, s.fetches (.rnd x kk))

/-- R22: a register changes in a step only if the instruction names it as a destination, or it is `V[15]` and the
instruction defines a flag (that the others leave `V[15]` alone is the spec's decision D13). -/
def Obligations.RegistersChangeOnlyAsDestinationOrFlag : Prop :=
  ∀ (s t : State) (r : RegIdx), step s = .next t → t.reg r ≠ s.reg r →
    ∃ i, s.fetches i ∧ (namesDestination i r = true ∨ (r = 15 ∧ definesFlag i = true))

/-- R62, R275: after a register block is stored over the next instruction, the next step runs the instruction that
the stored bytes encode. -/
def Obligations.NextFetchSeesTheStoredBytes : Prop :=
  ∀ (s : State) (x k k' : RegIdx) (i : Instr),
    s.i.toNat + x.val ≤ 0xFFF → k'.val = k.val + 1 → k'.val ≤ x.val → s.pc.toNat = s.i.toNat + k.val →
    decodeBytes [s.reg k, s.reg k'] = .ok (i, []) →
    ∃ t, exec (.ldMemVx x) s = .next t ∧ step t = exec i { t with pc := t.pc + 2 }

/-! ### Encoding -/

/-- R76, R71: decoding the bytes of an instruction gives it back, with every operand at every value, whatever bytes
follow. -/
def Obligations.DecodeGivesBackEveryEncodedInstruction : Prop :=
  ∀ (i : Instr) (rest : List Byte), decodeBytes (encodeBytes i ++ rest) = .ok (i, rest)

/-- R77: a word that decodes to `i` is `i`'s encoding but for the ignored bits (D4: log entry 15). -/
def Obligations.EncodeGivesBackTheWordButForIgnoredBits : Prop :=
  ∀ (w : Word) (i : Instr), decodeWord w = some i → encode i = w &&& ~~~ ignoredBits i

/-- R79, R94: the dispatcher and the opcode table are the same function: a word is unknown iff no row selects it, and
a known word is selected by its instruction's row and no other. -/
def Obligations.DispatcherAndOpcodeTableAgree : Prop :=
  ∀ w : Word,
    (decodeWord w = none ↔ ∀ row ∈ opcodeTable, row.selects w = false) ∧
    (∀ i, decodeWord w = some i → ∀ row ∈ opcodeTable, row.selects w = true ↔ row = rowOf i)

/-- R78: the unknown words, family by family (the numbers are K1, the exclusion of `0nnn` D5: log entry 11). -/
def Obligations.UnknownWordsAreExactlyThese : Prop :=
  ∀ w : Word, decodeWord w = none ↔
    (w.toNat / 4096 = 0x0 ∧ w.toNat % 256 ∉ [0xE0, 0xEE]) ∨
    (w.toNat / 4096 = 0x8 ∧ w.toNat % 16 ∈ [0x8, 0x9, 0xA, 0xB, 0xC, 0xD, 0xF]) ∨
    (w.toNat / 4096 = 0xE ∧ w.toNat % 256 ∉ [0x9E, 0xA1]) ∨
    (w.toNat / 4096 = 0xF ∧ w.toNat % 256 ∉ [0x07, 0x0A, 0x15, 0x18, 0x1E, 0x29, 0x33, 0x55, 0x65])

/-- The decode vectors E1 to E10 of 95_test_vectors.md (K1). -/
def Obligations.SpecDecodeVectorsDecode : Prop :=
  decodeWord 0xD7A5 = some (.drw 7 10 5) ∧ decodeWord 0x8AB4 = some (.addReg 10 11) ∧
  decodeWord 0xF065 = some (.ldVxMem 0) ∧ decodeWord 0x00E0 = some .cls ∧ decodeWord 0x0FEE = some .ret ∧
  decodeWord 0x5A7C = some (.seReg 10 7) ∧ decodeWord 0xE1A1 = some (.sknp 1) ∧
  decodeWord 0xFFFF = none ∧ decodeWord 0x0000 = none ∧ decodeWord 0x800F = none

/-- Memories of one machine in canonical form that read alike are the same data (the form is the model's, log entry 8). -/
def Obligations.CanonicalMemoriesThatReadAlikeAreEqual : Prop :=
  ∀ (font : Font) (m m' : Memory), m.wf font → m'.wf font →
    (∀ a : Nat, a ≤ 0xFFF → m.read font a = m'.read font a) → m = m'

/-! ### Control transfer -/

/-- R111: `JP nnn`; a `JP` to its own address is a state that `STEP` no longer changes; `JP 0xFFF` makes the next
fetch raise OutOfBounds. -/
def Obligations.JumpSetsPcAndSelfJumpHalts : Prop :=
  (∀ (nnn : Addr) (s : State), ∃ t, exec (.jp nnn) s = .next t ∧ t.pc.toNat = nnn.toNat ∧ keepsAllBut [.pc] s t ∧
    (nnn = 0xFFF → errOut .step t = some .outOfBounds)) ∧
  (∀ (nnn : Addr) (s : State), s.fetches (.jp nnn) → nnn.toNat = s.pc.toNat → step s = .next s)

/-- R117: `JP V0, nnn`; the sum is kept in full and a sum above 0xFFE makes the next fetch raise OutOfBounds (D10). -/
def Obligations.JumpWithOffsetAddsRegisterZero : Prop :=
  ∀ (nnn : Addr) (s : State), ∃ t, exec (.jpV0 nnn) s = .next t ∧
    t.pc.toNat = nnn.toNat + (s.reg 0).toNat ∧ keepsAllBut [.pc] s t ∧
    (nnn.toNat + (s.reg 0).toNat > 0xFFE → errOut .step t = some .outOfBounds)

/-- R112: `CALL nnn` pushes the address after the call and jumps; at `SP = 16` it reports CallStack, pushes nothing
and does not jump (D8, D9). -/
def Obligations.CallPushesReturnAddressAndJumps : Prop :=
  ∀ (nnn : Addr) (s : State),
    (s.sp.val < 16 → ∃ t, exec (.call nnn) s = .next t ∧ t.pc.toNat = nnn.toNat ∧ t.sp.val = s.sp.val + 1 ∧
      (∀ k : Fin 16, t.stack[k] = if k.val = s.sp.val then s.pc else s.stack[k]) ∧
      keepsAllBut [.pc, .sp, .stack] s t) ∧
    (s.sp.val = 16 → ∃ t, exec (.call nnn) s = .next t ∧ reports .callStack [] s t)

/-- R110: `RET` pops the most recent entry into `PC` and leaves it in its slot; at `SP = 0` it reports CallStack and
nothing else happens (D8, D9). -/
def Obligations.ReturnPopsTheMostRecentEntry : Prop :=
  ∀ s : State,
    (∀ k : Fin 16, s.sp.val = k.val + 1 → ∃ t, exec .ret s = .next t ∧ t.pc = s.stack[k] ∧ t.sp.val = k.val ∧
      keepsAllBut [.pc, .sp] s t) ∧
    (s.sp.val = 0 → ∃ t, exec .ret s = .next t ∧ reports .callStack [] s t)

/-- S7, C1: a `RET` that finds the stack as a `CALL` left it goes on at the instruction after the call, with the stack
as deep as before (D8, D9). -/
def Obligations.ReturnUndoesCall : Prop :=
  ∀ (nnn : Addr) (s t u : State), s.sp.val < 16 → exec (.call nnn) s = .next t →
    u.sp = t.sp → (∀ k : Fin 16, u.stack[k] = t.stack[k]) →
    ∃ v, exec .ret u = .next v ∧ v.pc = s.pc ∧ v.sp = s.sp

/-- R113, R114: `SE Vx, kk` and `SNE Vx, kk`. -/
def Obligations.SkipsOnImmediateComparison : Prop :=
  ∀ (x : RegIdx) (kk : Byte) (s : State),
    (∃ t, exec (.seImm x kk) s = .next t ∧
      t.pc.toNat = (s.pc.toNat + if s.reg x = kk then 2 else 0) % 65536 ∧ keepsAllBut [.pc] s t) ∧
    (∃ t, exec (.sneImm x kk) s = .next t ∧
      t.pc.toNat = (s.pc.toNat + if s.reg x = kk then 0 else 2) % 65536 ∧ keepsAllBut [.pc] s t)

/-- R115, R116: `SE Vx, Vy` and `SNE Vx, Vy`, for every value of the ignored low nibble (R77, D4). -/
def Obligations.SkipsOnRegisterComparison : Prop :=
  ∀ (x y : RegIdx) (s : State),
    (∃ t, exec (.seReg x y) s = .next t ∧
      t.pc.toNat = (s.pc.toNat + if s.reg x = s.reg y then 2 else 0) % 65536 ∧ keepsAllBut [.pc] s t) ∧
    (∃ t, exec (.sneReg x y) s = .next t ∧
      t.pc.toNat = (s.pc.toNat + if s.reg x = s.reg y then 0 else 2) % 65536 ∧ keepsAllBut [.pc] s t) ∧
    (∀ n : BitVec 4, decodeWord (encXYN 0x5 x y n) = some (.seReg x y) ∧
      decodeWord (encXYN 0x9 x y n) = some (.sneReg x y))

/-! ### The ALU -/

/-- R131, R132: `LD Vx, kk`, and `ADD Vx, kk` modulo 256 with no flag. -/
def Obligations.ImmediateLoadAndAdd : Prop :=
  ∀ (x : RegIdx) (kk : Byte) (s : State),
    (∃ t, exec (.ldImm x kk) s = .next t ∧ t.reg x = kk ∧ (∀ r, r ≠ x → t.reg r = s.reg r) ∧
      keepsAllBut [.v] s t) ∧
    (∃ t, exec (.addImm x kk) s = .next t ∧ (t.reg x).toNat = ((s.reg x).toNat + kk.toNat) % 256 ∧
      (∀ r, r ≠ x → t.reg r = s.reg r) ∧ keepsAllBut [.v] s t)

/-- R133 to R136: MOV, OR, AND, XOR, bit by bit; no other register, the flag register among them, changes (that they
leave `V[15]` alone is the spec's decision D13). -/
def Obligations.MoveAndBitwiseOperations : Prop :=
  ∀ (x y : RegIdx) (s : State),
    (∃ t, exec (.ldReg x y) s = .next t ∧ t.reg x = s.reg y ∧ (∀ r, r ≠ x → t.reg r = s.reg r) ∧
      keepsAllBut [.v] s t) ∧
    (∃ t, exec (.orReg x y) s = .next t ∧
      (∀ j : Nat, (t.reg x).getLsbD j = ((s.reg x).getLsbD j || (s.reg y).getLsbD j)) ∧
      (∀ r, r ≠ x → t.reg r = s.reg r) ∧ keepsAllBut [.v] s t) ∧
    (∃ t, exec (.andReg x y) s = .next t ∧
      (∀ j : Nat, (t.reg x).getLsbD j = ((s.reg x).getLsbD j && (s.reg y).getLsbD j)) ∧
      (∀ r, r ≠ x → t.reg r = s.reg r) ∧ keepsAllBut [.v] s t) ∧
    (∃ t, exec (.xorReg x y) s = .next t ∧
      (∀ j : Nat, (t.reg x).getLsbD j = ((s.reg x).getLsbD j ^^ (s.reg y).getLsbD j)) ∧
      (∀ r, r ≠ x → t.reg r = s.reg r) ∧ keepsAllBut [.v] s t)

/-- R137: `ADD Vx, Vy`: the sum modulo 256 into `Vx`, and 1 or 0 into `V[15]` as the sum is above 255 or not; for
`x` = 15 the result is what remains. -/
def Obligations.AddSetsSumAndCarry : Prop :=
  ∀ (x y : RegIdx) (s : State), ∃ t, exec (.addReg x y) s = .next t ∧
    (t.reg x).toNat = ((s.reg x).toNat + (s.reg y).toNat) % 256 ∧
    (x ≠ 15 → (t.reg 15).toNat = if (s.reg x).toNat + (s.reg y).toNat > 255 then 1 else 0) ∧
    (∀ r, r ≠ x → r ≠ 15 → t.reg r = s.reg r) ∧ keepsAllBut [.v] s t

/-- R138: `SUB Vx, Vy`: the difference modulo 256 into `Vx`, and 1 or 0 into `V[15]` as `Vx > Vy` (strictly) or not;
for `x` = 15 the difference is what remains (the spec's decision D14). -/
def Obligations.SubSetsDifferenceAndFlag : Prop :=
  ∀ (x y : RegIdx) (s : State), ∃ t, exec (.sub x y) s = .next t ∧
    (t.reg x).toNat = ((s.reg x).toNat + 256 - (s.reg y).toNat) % 256 ∧
    (x ≠ 15 → (t.reg 15).toNat = if (s.reg x).toNat > (s.reg y).toNat then 1 else 0) ∧
    (∀ r, r ≠ x → r ≠ 15 → t.reg r = s.reg r) ∧ keepsAllBut [.v] s t

/-- R140: `SUBN Vx, Vy`: `Vy - Vx` modulo 256, flag 1 iff `Vy > Vx` (the operation is general knowledge, K3, its flag
the spec's decision D15: log entry 12). -/
def Obligations.SubnSetsReverseDifferenceAndFlag : Prop :=
  ∀ (x y : RegIdx) (s : State), ∃ t, exec (.subn x y) s = .next t ∧
    (t.reg x).toNat = ((s.reg y).toNat + 256 - (s.reg x).toNat) % 256 ∧
    (x ≠ 15 → (t.reg 15).toNat = if (s.reg y).toNat > (s.reg x).toNat then 1 else 0) ∧
    (∀ r, r ≠ x → r ≠ 15 → t.reg r = s.reg r) ∧ keepsAllBut [.v] s t

/-- R139, R141: `SHR` and `SHL` shift `Vy` by one bit into `Vx`; the flag is the bit shifted out; for `x` = 15 the
result is what remains (the spec's decision D14). -/
def Obligations.ShiftsTakeVyAndSetTheBitShiftedOut : Prop :=
  ∀ (x y : RegIdx) (s : State),
    (∃ t, exec (.shr x y) s = .next t ∧ (t.reg x).toNat = (s.reg y).toNat / 2 ∧
      (x ≠ 15 → (t.reg 15).toNat = (s.reg y).toNat % 2) ∧
      (∀ r, r ≠ x → r ≠ 15 → t.reg r = s.reg r) ∧ keepsAllBut [.v] s t) ∧
    (∃ t, exec (.shl x y) s = .next t ∧ (t.reg x).toNat = 2 * (s.reg y).toNat % 256 ∧
      (x ≠ 15 → (t.reg 15).toNat = (s.reg y).toNat / 128) ∧
      (∀ r, r ≠ x → r ≠ 15 → t.reg r = s.reg r) ∧ keepsAllBut [.v] s t)

/-- R142: `RND Vx, kk` masks one freshly drawn byte. The byte is a free value: the statement holds for every value of
`draws` and rests on no value of the draw (D23; log entry 3). -/
def Obligations.RandomMasksOneFreeByte : Prop :=
  ∀ (x : RegIdx) (kk : Byte) (s : State), ∃ t, exec (.rnd x kk) s = .next t ∧
    (∀ j : Nat, (t.reg x).getLsbD j = ((Config.randomByte s.draws).getLsbD j && kk.getLsbD j)) ∧
    (t.reg x) &&& ~~~ kk = 0 ∧ t.draws = s.draws + 1 ∧
    (∀ r, r ≠ x → t.reg r = s.reg r) ∧ keepsAllBut [.v, .draws] s t

/-! ### Index register and memory -/

/-- R160: `LD I, nnn`. -/
def Obligations.LoadIndexSetsTheAddress : Prop :=
  ∀ (nnn : Addr) (s : State), ∃ t, exec (.ldI nnn) s = .next t ∧ t.i.toNat = nnn.toNat ∧ keepsAllBut [.i] s t

/-- R161: `ADD I, Vx` modulo 2^16, with no flag and no mask to 12 bits (D12). -/
def Obligations.AddToIndexKeepsSixteenBits : Prop :=
  ∀ (x : RegIdx) (s : State), ∃ t, exec (.addI x) s = .next t ∧
    t.i.toNat = (s.i.toNat + (s.reg x).toNat) % 65536 ∧ keepsAllBut [.i] s t

/-- R162: `LD F, Vx` overwrites `I` with the glyph's address (C5, D20); a digit above 15 is reported as
InvalidRegisterIndex and `I` is unchanged (D19). -/
def Obligations.FontAddressOfADigit : Prop :=
  ∀ (x : RegIdx) (s : State),
    ((s.reg x).toNat ≤ 15 → ∃ t, exec (.ldF x) s = .next t ∧ t.i.toNat = 0x050 + 5 * (s.reg x).toNat ∧
      keepsAllBut [.i] s t) ∧
    ((s.reg x).toNat > 15 → ∃ t, exec (.ldF x) s = .next t ∧ reports .invalidRegisterIndex [] s t)

/-- R163: `LD B, Vx` stores the hundreds, tens and ones digits at `I`, `I + 1`, `I + 2`, and no other byte; with
`I + 2 > 0xFFF` it reports OutOfBounds and writes nothing (D7); `I` is unchanged (D21). -/
def Obligations.BcdStoresThreeDigits : Prop :=
  ∀ (x : RegIdx) (s : State),
    (s.ea 2 ≤ 0xFFF → ∃ t, exec (.ldB x) s = .next t ∧
      (t.byte (s.ea 0)).toNat = (s.reg x).toNat / 100 ∧
      (t.byte (s.ea 1)).toNat = (s.reg x).toNat / 10 % 10 ∧
      (t.byte (s.ea 2)).toNat = (s.reg x).toNat % 10 ∧
      (∀ a : Nat, a < s.ea 0 ∨ s.ea 2 < a → t.byte a = s.byte a) ∧ keepsAllBut [.mem] s t) ∧
    (s.ea 2 > 0xFFF → ∃ t, exec (.ldB x) s = .next t ∧ reports .outOfBounds [] s t)

/-- R164: `LD [I], Vx` stores `V[0]`..`V[x]` at `I`..`I + x`, and no other byte; `I` is unchanged (D21, C6); with
`I + x > 0xFFF` it reports OutOfBounds and writes nothing (D7). -/
def Obligations.BlockStoreWritesRegistersZeroToX : Prop :=
  ∀ (x : RegIdx) (s : State),
    (s.ea x.val ≤ 0xFFF → ∃ t, exec (.ldMemVx x) s = .next t ∧
      (∀ k : RegIdx, k.val ≤ x.val → t.byte (s.ea k.val) = s.reg k) ∧
      (∀ a : Nat, a < s.ea 0 ∨ s.ea x.val < a → t.byte a = s.byte a) ∧ keepsAllBut [.mem] s t) ∧
    (s.ea x.val > 0xFFF → ∃ t, exec (.ldMemVx x) s = .next t ∧ reports .outOfBounds [] s t)

/-- R165: `LD Vx, [I]` loads `V[0]`..`V[x]` from `I`..`I + x` and leaves the other registers; `I` is unchanged (D21,
C6); with `I + x > 0xFFF` it reports OutOfBounds and loads nothing (D7). -/
def Obligations.BlockLoadReadsRegistersZeroToX : Prop :=
  ∀ (x : RegIdx) (s : State),
    (s.ea x.val ≤ 0xFFF → ∃ t, exec (.ldVxMem x) s = .next t ∧
      (∀ k : RegIdx, k.val ≤ x.val → t.reg k = s.byte (s.ea k.val)) ∧
      (∀ k : RegIdx, x.val < k.val → t.reg k = s.reg k) ∧ keepsAllBut [.v] s t) ∧
    (s.ea x.val > 0xFFF → ∃ t, exec (.ldVxMem x) s = .next t ∧ reports .outOfBounds [] s t)

/-- S5: storing registers 0..x and later loading them from the same address, memory unchanged between, gives their
values back whatever the registers held (R164, R165; D21). -/
def Obligations.BlockLoadUndoesBlockStore : Prop :=
  ∀ (x : RegIdx) (s t u : State), s.ea x.val ≤ 0xFFF → exec (.ldMemVx x) s = .next t →
    u.i = t.i → (∀ a : Nat, u.byte a = t.byte a) →
    ∃ v, exec (.ldVxMem x) u = .next v ∧ ∀ k : RegIdx, k.val ≤ x.val → v.reg k = s.reg k

/-! ### Display -/

/-- R181: `CLS` puts out every pixel and changes nothing else, for every value of the ignored bits 11:8 (the
encoding is K1, that the bits are ignored D4: log entries 11 and 15). -/
def Obligations.ClearScreenUnlightsEveryPixel : Prop :=
  (∀ s : State, ∃ t, exec .cls s = .next t ∧ (∀ y x : Nat, t.fb.pixel y x = false) ∧ keepsAllBut [.fb] s t) ∧
  (∀ h : RegIdx, decodeWord (encXKK 0x0 h 0xE0) = some .cls)

/-- R182, R183: `DRW Vx, Vy, n` XORs the window of the sprite into the framebuffer and sets `V[15]` to 1 if some lit
pixel met a 1 bit, else to 0; edges clip (D16), the orientation is D17; if the sprite reaches outside memory it
reports OutOfBounds and draws nothing (D18). -/
def Obligations.DrawXorsTheWindowAndSetsCollision : Prop :=
  ∀ (x y : RegIdx) (n : BitVec 4) (s : State),
    let bit := windowBit ((s.reg y).toNat % 32) ((s.reg x).toNat % 64)
      ((List.range n.toNat).map fun k => s.byte (s.i.toNat + k))
    (n.toNat = 0 ∨ s.i.toNat + n.toNat - 1 ≤ 0xFFF → ∃ t, exec (.drw x y n) s = .next t ∧
      (∀ row col : Nat, t.fb.pixel row col = (s.fb.pixel row col ^^ bit row col)) ∧
      ((∃ row col : Nat, s.fb.pixel row col = true ∧ bit row col = true) → t.reg 15 = 1) ∧
      ((∀ row col : Nat, s.fb.pixel row col = true → bit row col = false) → t.reg 15 = 0) ∧
      (∀ r, r ≠ 15 → t.reg r = s.reg r) ∧ keepsAllBut [.v, .fb] s t) ∧
    (n.toNat > 0 ∧ s.i.toNat + n.toNat - 1 > 0xFFF → ∃ t, exec (.drw x y n) s = .next t ∧
      reports .outOfBounds [] s t)

/-- R183 (c): drawing the same sprite twice at the same place restores the framebuffer, and the second draw sets the
flag iff the visible part has a 1 bit that fell on an unlit pixel the first time (D16 to D18). -/
def Obligations.DrawingTwiceRestoresTheFramebuffer : Prop :=
  ∀ (x y : RegIdx) (n : BitVec 4) (s t : State),
    n.toNat = 0 ∨ s.i.toNat + n.toNat - 1 ≤ 0xFFF → exec (.drw x y n) s = .next t →
    (t.reg x).toNat % 64 = (s.reg x).toNat % 64 → (t.reg y).toNat % 32 = (s.reg y).toNat % 32 →
    ∃ u, exec (.drw x y n) t = .next u ∧ (∀ row col : Nat, u.fb.pixel row col = s.fb.pixel row col) ∧
      (u.reg 15 = 1 ↔ ∃ row col : Nat, s.fb.pixel row col = false ∧ t.fb.pixel row col = true)

/-! ### Keypad and timers -/

/-- R200, R201: `SKP` and `SKNP` skip by the state of the key numbered by the whole value of `Vx`; above 15 they
report InvalidRegisterIndex and neither skips (D32). -/
def Obligations.KeySkipsFollowTheKeyState : Prop :=
  ∀ (x : RegIdx) (s : State),
    (∀ k : Fin 16, (s.reg x).toNat = k.val →
      (∃ t, exec (.skp x) s = .next t ∧
        t.pc.toNat = (s.pc.toNat + if s.key[k] = true then 2 else 0) % 65536 ∧ keepsAllBut [.pc] s t) ∧
      (∃ t, exec (.sknp x) s = .next t ∧
        t.pc.toNat = (s.pc.toNat + if s.key[k] = true then 0 else 2) % 65536 ∧ keepsAllBut [.pc] s t)) ∧
    ((s.reg x).toNat > 15 →
      (∃ t, exec (.skp x) s = .next t ∧ reports .invalidRegisterIndex [] s t) ∧
      (∃ t, exec (.sknp x) s = .next t ∧ reports .invalidRegisterIndex [] s t))

/-- R202: `LD Vx, DT`. R204: `LD DT, Vx`, and the next `TICK` counts the new value down. R205: `LD ST, Vx`, after
which `TONE` is on iff the value is above 0; at every moment `TONE` is `ST > 0` (R228). -/
def Obligations.TimerReadsAndWrites : Prop :=
  ∀ (x : RegIdx) (s : State),
    (∃ t, exec (.ldVxDt x) s = .next t ∧ t.reg x = s.dt ∧ (∀ r, r ≠ x → t.reg r = s.reg r) ∧
      keepsAllBut [.v] s t) ∧
    (∃ t, exec (.ldDtVx x) s = .next t ∧ t.dt = s.reg x ∧ keepsAllBut [.dt] s t ∧
      ∃ u, perform .tick t = .next u ∧ u.dt.toNat = (s.reg x).toNat - 1) ∧
    (∃ t, exec (.ldStVx x) s = .next t ∧ t.st = s.reg x ∧ keepsAllBut [.st] s t ∧
      (tone t = true ↔ (s.reg x).toNat > 0)) ∧
    (tone s = true ↔ s.st.toNat > 0)

/-- R203: `LD Vx, K` stores the lowest pressed key; with none pressed it puts `PC` back on itself and changes nothing
else (D22). -/
def Obligations.KeyWaitTakesTheLowestKeyOrStays : Prop :=
  ∀ (x : RegIdx) (s : State),
    (∀ k : Fin 16, s.key[k] = true → (∀ j : Fin 16, j < k → s.key[j] = false) →
      ∃ t, exec (.ldVxK x) s = .next t ∧ (t.reg x).toNat = k.val ∧ (∀ r, r ≠ x → t.reg r = s.reg r) ∧
        keepsAllBut [.v] s t) ∧
    ((∀ k : Fin 16, s.key[k] = false) →
      ∃ t, exec (.ldVxK x) s = .next t ∧ t.pc.toNat = (s.pc.toNat + 65536 - 2) % 65536 ∧ keepsAllBut [.pc] s t)

/-- R203, R277: while the next instruction is `LD Vx, K` and no key is pressed, a step completes and leaves the whole
state as it was (D22). R278: so does a step of a program that has ended, in the sense of the spec's convention D31. -/
def Obligations.WaitingAndEndedMachinesAreUnchangedByAStep : Prop :=
  (∀ s : State, s.waiting → step s = .next s) ∧ (∀ s : State, s.ended → step s = .next s)

/-! ### The parameter FONT and the sound timer -/

/-- R37, R6: FONT is constant data: after any schedule it is the machine's own table still, and a `RESET` then puts that
table's bytes into memory again, whatever the schedule wrote there (that RESET may be repeated is the spec's D25; the
parameter stands in State by the model's choice, log entry 23). -/
def Obligations.ResetRestoresTheSameFontAfterEverySchedule : Prop :=
  ∀ (ts : List Transaction) (s : State), ∃ t u, runSchedule ts s = .next t ∧ t.font = s.font ∧
    runSchedule (ts ++ [.reset]) s = .next u ∧ u.font = s.font ∧
    ∀ k : Fin 80, u.byte (0x050 + k.val) = s.font[k]

/-- R205, R28: no instruction reads the sound timer back: two states that differ in `ST` alone, given the same random
byte, differ after a step in `ST` at most, and report the same. THE MODEL'S CHOICE in the `RND` case: both steps read
`Config.randomByte` at the same count `draws` and so draw the same byte (DESIGN CHOICE, log entry 3), which two runs of
the hardware need not do; the statement says nothing of two machines that draw different bytes. -/
def Obligations.NoInstructionReadsTheSoundTimer : Prop :=
  ∀ (s : State) (b : Byte), errOut .step (s.setSt b) = errOut .step s ∧
    ∃ t u, step s = .next t ∧ step (s.setSt b) = .next u ∧ keepsAllBut [.st] t u
end

