-- ==== Sys2Proof/Laws/Decode.lean ====
section
/-! SUPPORT. The decoder's fields of a word put together by the encoder's formats (R71, R72), the bits a row's mask
keeps, and words from bytes. -/

namespace Sys2Proof

/-! ### Bits of a concatenation -/

theorem extract_high {m n : Nat} (a : BitVec m) (b : BitVec n) (s l : Nat) (h : n ≤ s) :
    (a ++ b).extractLsb' s l = a.extractLsb' (s - n) l := by
  ext i hi
  simp only [BitVec.getElem_extractLsb', BitVec.getLsbD_append]
  have h1 : ¬ s + i < n := by omega
  have h2 : s + i - n = s - n + i := by omega
  simp [h1, h2]

theorem extract_low {m n : Nat} (a : BitVec m) (b : BitVec n) (s l : Nat) (h : s + l ≤ n) :
    (a ++ b).extractLsb' s l = b.extractLsb' s l := by
  ext i hi
  simp only [BitVec.getElem_extractLsb', BitVec.getLsbD_append]
  have h1 : s + i < n := by omega
  simp [h1]

theorem extract_whole {n : Nat} (b : BitVec n) : b.extractLsb' 0 n = b := by
  ext i hi
  simp

/-! ### Fields of the formats -/

@[simp] theorem fieldsOf_encNNN_op (op : BitVec 4) (nnn : Addr) : (fieldsOf (encNNN op nnn)).op = op := by
  show (op ++ nnn).extractLsb' 12 4 = op
  rw [extract_high _ _ _ _ (by decide)]; exact extract_whole op

@[simp] theorem fieldsOf_encNNN_nnn (op : BitVec 4) (nnn : Addr) : (fieldsOf (encNNN op nnn)).nnn = nnn := by
  show (op ++ nnn).extractLsb' 0 12 = nnn
  rw [extract_low _ _ _ _ (by decide)]; exact extract_whole nnn

@[simp] theorem fieldsOf_encXKK_op (op : BitVec 4) (x : RegIdx) (kk : Byte) :
    (fieldsOf (encXKK op x kk)).op = op := by
  show ((op ++ (BitVec.ofFin x : BitVec 4)) ++ kk).extractLsb' 12 4 = op
  rw [extract_high _ _ _ _ (by decide), extract_high _ _ _ _ (by decide)]; exact extract_whole op

@[simp] theorem fieldsOf_encXKK_x (op : BitVec 4) (x : RegIdx) (kk : Byte) :
    (fieldsOf (encXKK op x kk)).x = x := by
  have h : ((op ++ (BitVec.ofFin x : BitVec 4)) ++ kk).extractLsb' 8 4 = (BitVec.ofFin x : BitVec 4) := by
    rw [extract_high _ _ _ _ (by decide), extract_low _ _ _ _ (by decide)]; exact extract_whole _
  exact congrArg BitVec.toFin h

@[simp] theorem fieldsOf_encXKK_kk (op : BitVec 4) (x : RegIdx) (kk : Byte) :
    (fieldsOf (encXKK op x kk)).kk = kk := by
  show ((op ++ (BitVec.ofFin x : BitVec 4)) ++ kk).extractLsb' 0 8 = kk
  rw [extract_low _ _ _ _ (by decide)]; exact extract_whole kk

@[simp] theorem fieldsOf_encXYN_op (op : BitVec 4) (x y : RegIdx) (n : BitVec 4) :
    (fieldsOf (encXYN op x y n)).op = op := by
  show ((op ++ (BitVec.ofFin x : BitVec 4)) ++ ((BitVec.ofFin y : BitVec 4) ++ n)).extractLsb' 12 4 = op
  rw [extract_high _ _ _ _ (by decide), extract_high _ _ _ _ (by decide)]; exact extract_whole op

@[simp] theorem fieldsOf_encXYN_x (op : BitVec 4) (x y : RegIdx) (n : BitVec 4) :
    (fieldsOf (encXYN op x y n)).x = x := by
  have h : ((op ++ (BitVec.ofFin x : BitVec 4)) ++ ((BitVec.ofFin y : BitVec 4) ++ n)).extractLsb' 8 4 =
      (BitVec.ofFin x : BitVec 4) := by
    rw [extract_high _ _ _ _ (by decide), extract_low _ _ _ _ (by decide)]; exact extract_whole _
  exact congrArg BitVec.toFin h

@[simp] theorem fieldsOf_encXYN_y (op : BitVec 4) (x y : RegIdx) (n : BitVec 4) :
    (fieldsOf (encXYN op x y n)).y = y := by
  have h : ((op ++ (BitVec.ofFin x : BitVec 4)) ++ ((BitVec.ofFin y : BitVec 4) ++ n)).extractLsb' 4 4 =
      (BitVec.ofFin y : BitVec 4) := by
    rw [extract_low _ _ _ _ (by decide), extract_high _ _ _ _ (by decide)]; exact extract_whole _
  exact congrArg BitVec.toFin h

@[simp] theorem fieldsOf_encXYN_n (op : BitVec 4) (x y : RegIdx) (n : BitVec 4) :
    (fieldsOf (encXYN op x y n)).n = n := by
  show ((op ++ (BitVec.ofFin x : BitVec 4)) ++ ((BitVec.ofFin y : BitVec 4) ++ n)).extractLsb' 0 4 = n
  rw [extract_low _ _ _ _ (by decide), extract_low _ _ _ _ (by decide)]; exact extract_whole n

/-! ### The bits a mask of R76 keeps -/

/-- The mask of the twelve families without a secondary key keeps `op`. -/
theorem mask_op (w : Word) : w &&& 0xF000#16 = ((fieldsOf w).op ++ (0#12) : BitVec (4 + 12)) := by
  apply BitVec.eq_of_getLsbD_eq
  intro i hi
  rw [BitVec.getLsbD_append, BitVec.getLsbD_and]
  simp only [fieldsOf]
  interval_cases i <;> simp

/-- The mask of family 0x8 keeps `op` and `n`. -/
theorem mask_op_n (w : Word) :
    w &&& 0xF00F#16 = ((fieldsOf w).op ++ (0#8 ++ (fieldsOf w).n) : BitVec (4 + (8 + 4))) := by
  apply BitVec.eq_of_getLsbD_eq
  intro i hi
  rw [BitVec.getLsbD_append, BitVec.getLsbD_append, BitVec.getLsbD_and]
  simp only [fieldsOf]
  interval_cases i <;> simp

/-- The mask of families 0x0, 0xE and 0xF keeps `op` and `kk`. -/
theorem mask_op_kk (w : Word) :
    w &&& 0xF0FF#16 = ((fieldsOf w).op ++ (0#4 ++ (fieldsOf w).kk) : BitVec (4 + (4 + 8))) := by
  apply BitVec.eq_of_getLsbD_eq
  intro i hi
  rw [BitVec.getLsbD_append, BitVec.getLsbD_append, BitVec.getLsbD_and]
  simp only [fieldsOf]
  interval_cases i <;> simp

/-! ### Words and bytes -/

/-- A word is the word of its two bytes, high byte first (R51). -/
@[simp] theorem wordOf_bytes (w : Word) : wordOf (w.extractLsb' 8 8) (w.extractLsb' 0 8) = w := by
  apply BitVec.eq_of_getLsbD_eq
  intro i hi
  show (w.extractLsb' 8 8 ++ w.extractLsb' 0 8).getLsbD i = _
  rw [BitVec.getLsbD_append]
  by_cases h : i < 8
  · simp [h]
  · have h1 : 8 + (i - 8) = i := by omega
    have h2 : i - 8 < 8 := by omega
    simp [h, h2, h1]

theorem decodeBytes_pair (hi lo : Byte) (rest : List Byte) :
    decodeBytes (hi :: lo :: rest) =
      match decodeWord (wordOf hi lo) with
      | some i => .ok (i, rest)
      | none => .error .unknownWord := rfl

/-- The table's word is the memory's word: `decodeTableWord` on 16 bits is the decoder. -/
theorem decodeTableWord_word (w : Word) : decodeTableWord 16 w.toNat = decodeWord w := by
  have h : BitVec.ofNat 16 (w.toNat % 2 ^ 16) = w := by
    rw [Nat.mod_eq_of_lt w.isLt]; simp
  unfold decodeTableWord
  simp only [h, decodeBytes_pair, wordOf_bytes]
  cases decodeWord w <;> rfl

end Sys2Proof
end

