-- ==== Sys2Proof/Laws/Display.lean ====
section
/-! SUPPORT. What drawing does, pixel by pixel (R183). -/

namespace Sys2Proof.Machine

@[simp] theorem Framebuffer.pixel_clear (y x : Nat) : Framebuffer.clear.pixel y x = false := by
  simp [Framebuffer.pixel, Framebuffer.clear]

theorem Framebuffer.pixel_outside (f : Framebuffer) (y x : Nat) (h : ¬ (y < 32 ∧ x < 64)) :
    f.pixel y x = false := by
  unfold Framebuffer.pixel; exact dif_neg h

/-- A flip turns the one pixel, if it is on the grid, and no other. -/
theorem Framebuffer.pixel_flip (f : Framebuffer) (r c y x : Nat) (h : r < 32 ∧ c < 64) :
    (f.flip r c).pixel y x = if y = r ∧ x = c then !f.pixel y x else f.pixel y x := by
  by_cases hyx : y < 32 ∧ x < 64
  · by_cases hy : r = y
    · subst hy
      by_cases hx : c = x
      · subst hx; simp [Framebuffer.pixel, Framebuffer.flip, h]
      · simp [Framebuffer.pixel, Framebuffer.flip, h, hyx, hx, Ne.symm hx]
    · simp [Framebuffer.pixel, Framebuffer.flip, h, hyx, hy, Ne.symm hy]
  · rw [Framebuffer.pixel_outside _ _ _ hyx, Framebuffer.pixel_outside _ _ _ hyx]
    have : ¬ (y = r ∧ x = c) := by omega
    simp [this]

/-- One sprite bit: the pixel becomes old XOR bit on the grid; nothing else changes; a hit is old AND bit. -/
theorem Canvas.drawBit_spec (k : Canvas) (r c : Nat) (bit : Bool) :
    (∀ y x, (k.drawBit r c bit).fb.pixel y x =
      (k.fb.pixel y x ^^ (decide (y = r ∧ x = c ∧ y < 32 ∧ x < 64) && bit))) ∧
    (k.drawBit r c bit).hit = (k.hit || (k.fb.pixel r c && bit)) := by
  unfold Canvas.drawBit
  split
  · rename_i h
    obtain ⟨hr, hc, rfl⟩ := h
    refine ⟨fun y x => ?_, by simp⟩
    rw [Framebuffer.pixel_flip _ _ _ _ _ (by omega)]
    by_cases hyx : y = r ∧ x = c
    · have hd : y = r ∧ x = c ∧ y < 32 ∧ x < 64 := by omega
      rw [if_pos hyx, decide_eq_true hd]; simp
    · have : ¬ (y = r ∧ x = c ∧ y < 32 ∧ x < 64) := fun h => hyx ⟨h.1, h.2.1⟩
      simp [hyx, this]
  · rename_i h
    cases bit with
    | false => simp
    | true =>
      have h : ¬ (r < 32 ∧ c < 64) := by simp at h; omega
      refine ⟨fun y x => ?_, by simp [Framebuffer.pixel_outside _ _ _ h]⟩
      have : ¬ (y = r ∧ x = c ∧ y < 32 ∧ x < 64) := by omega
      simp [this]

/-- Whether the first `n` columns of sprite byte `b`, drawn on row `r` from column `px`, hold a 1 bit for the pixel
`(y, x)` of the grid. -/
def columnBit (r px : Nat) (b : Byte) (n y x : Nat) : Bool :=
  decide (y = r ∧ y < 32 ∧ x < 64 ∧ px ≤ x ∧ x - px < n) && b.getLsbD (7 - (x - px))

/-- The columns of one sprite byte. -/
theorem Canvas.drawColumns_spec (k : Canvas) (r px : Nat) (b : Byte) (n : Nat) :
    (∀ y x, (k.drawColumns r px b n).fb.pixel y x = (k.fb.pixel y x ^^ columnBit r px b n y x)) ∧
    ((k.drawColumns r px b n).hit = true ↔
      k.hit = true ∨ ∃ y x, k.fb.pixel y x = true ∧ columnBit r px b n y x = true) := by
  induction n with
  | zero => simp [Canvas.drawColumns, columnBit]
  | succ n ih =>
    obtain ⟨ihp, ihh⟩ := ih
    obtain ⟨hp, hh⟩ := Canvas.drawBit_spec (k.drawColumns r px b n) r (px + n) (b.getLsbD (7 - n))
    have key : ∀ y x, columnBit r px b (n + 1) y x =
        (columnBit r px b n y x ^^ (decide (y = r ∧ x = px + n ∧ y < 32 ∧ x < 64) && b.getLsbD (7 - n))) := by
      intro y x
      unfold columnBit
      by_cases hx : x = px + n
      · subst hx
        by_cases hy : y = r ∧ y < 32 ∧ px + n < 64
        · simp [hy]
        · have h1 : ¬ (y = r ∧ y < 32 ∧ px + n < 64 ∧ px ≤ px + n ∧ px + n - px < n + 1) := by omega
          have h2 : ¬ (y = r ∧ y < 32 ∧ px + n < 64 ∧ px ≤ px + n ∧ px + n - px < n) := by omega
          have h3 : ¬ (y = r ∧ px + n = px + n ∧ y < 32 ∧ px + n < 64) := by omega
          rw [decide_eq_false h1, decide_eq_false h2, decide_eq_false h3]; rfl
      · have h3 : ¬ (y = r ∧ x = px + n ∧ y < 32 ∧ x < 64) := fun h => hx h.2.1
        have h4 : (y = r ∧ y < 32 ∧ x < 64 ∧ px ≤ x ∧ x - px < n + 1) ↔
            (y = r ∧ y < 32 ∧ x < 64 ∧ px ≤ x ∧ x - px < n) := by omega
        simp only [decide_eq_false h3, h4]; simp
    refine ⟨fun y x => ?_, ?_⟩
    · show ((k.drawColumns r px b n).drawBit r (px + n) _).fb.pixel y x = _
      rw [hp, ihp, key, Bool.xor_assoc]
    · show ((k.drawColumns r px b n).drawBit r (px + n) _).hit = true ↔ _
      rw [hh, Bool.or_eq_true, ihh, Bool.and_eq_true, ihp]
      have hzero : columnBit r px b n r (px + n) = false := by
        unfold columnBit
        have : ¬ (r = r ∧ r < 32 ∧ px + n < 64 ∧ px ≤ px + n ∧ px + n - px < n) := by omega
        rw [decide_eq_false this]; rfl
      rw [hzero, Bool.xor_false]
      constructor
      · rintro ((h | ⟨y, x, h1, h2⟩) | ⟨h1, h2⟩)
        · exact .inl h
        · refine .inr ⟨y, x, h1, ?_⟩
          unfold columnBit at h2 ⊢
          simp only [Bool.and_eq_true, decide_eq_true_eq] at h2 ⊢
          exact ⟨by omega, h2.2⟩
        · refine .inr ⟨r, px + n, h1, ?_⟩
          have hg : r < 32 ∧ px + n < 64 := by
            by_contra hc
            rw [Framebuffer.pixel_outside _ _ _ hc] at h1
            exact Bool.false_ne_true h1
          unfold columnBit
          have h5 : px + n - px = n := by omega
          rw [h5, Bool.and_eq_true, decide_eq_true_eq]
          exact ⟨by omega, h2⟩
      · rintro (h | ⟨y, x, h1, h2⟩)
        · exact .inl (.inl h)
        · by_cases hx : x = px + n
          · subst hx
            unfold columnBit at h2
            have h5 : px + n - px = n := by omega
            simp only [h5, Bool.and_eq_true, decide_eq_true_eq] at h2
            obtain ⟨⟨rfl, -⟩, h6⟩ := h2
            exact .inr ⟨h1, h6⟩
          · refine .inl (.inr ⟨y, x, h1, ?_⟩)
            unfold columnBit at h2 ⊢
            simp only [Bool.and_eq_true, decide_eq_true_eq] at h2 ⊢
            exact ⟨by omega, h2.2⟩

theorem windowBit_nil (r px y x : Nat) : windowBit r px [] y x = false := by simp [windowBit]

theorem windowBit_cons (r px : Nat) (b : Byte) (bs : List Byte) (y x : Nat) :
    windowBit r px (b :: bs) y x = (columnBit r px b 8 y x ^^ windowBit (r + 1) px bs y x) := by
  unfold windowBit columnBit
  by_cases hy : y = r
  · subst hy
    have h1 : ¬ (y + 1 ≤ y ∧ y < 32 ∧ x < 64 ∧ px ≤ x ∧ x - px < 8) := by omega
    rw [decide_eq_false h1]; simp
  · have h1 : ¬ (y = r ∧ y < 32 ∧ x < 64 ∧ px ≤ x ∧ x - px < 8) := fun h => hy h.1
    by_cases h2 : r + 1 ≤ y
    · have h3 : y - r = (y - (r + 1)) + 1 := by omega
      have h4 : (r ≤ y ∧ y < 32 ∧ x < 64 ∧ px ≤ x ∧ x - px < 8) ↔
          (r + 1 ≤ y ∧ y < 32 ∧ x < 64 ∧ px ≤ x ∧ x - px < 8) := by omega
      simp only [decide_eq_false h1, h3, List.getD_cons_succ, h4]; simp
    · have h3 : ¬ (r ≤ y ∧ y < 32 ∧ x < 64 ∧ px ≤ x ∧ x - px < 8) := by omega
      have h4 : ¬ (r + 1 ≤ y ∧ y < 32 ∧ x < 64 ∧ px ≤ x ∧ x - px < 8) := by omega
      rw [decide_eq_false h1, decide_eq_false h3, decide_eq_false h4]; rfl

/-- A whole sprite: every pixel becomes old XOR the sprite's bit for it, and there is a hit iff there was one
before or some lit pixel meets a 1 bit (R183 (a), (b)). -/
theorem Canvas.drawRows_spec (bs : List Byte) (k : Canvas) (r px : Nat) :
    (∀ y x, (k.drawRows r px bs).fb.pixel y x = (k.fb.pixel y x ^^ windowBit r px bs y x)) ∧
    ((k.drawRows r px bs).hit = true ↔
      k.hit = true ∨ ∃ y x, k.fb.pixel y x = true ∧ windowBit r px bs y x = true) := by
  induction bs generalizing k r with
  | nil => simp [Canvas.drawRows, windowBit_nil]
  | cons b bs ih =>
    obtain ⟨cp, ch⟩ := Canvas.drawColumns_spec k r px b 8
    obtain ⟨ip, ih2⟩ := ih (k.drawColumns r px b 8) (r + 1)
    have disjoint : ∀ y x, ¬ (columnBit r px b 8 y x = true ∧ windowBit (r + 1) px bs y x = true) := by
      intro y x h
      simp only [columnBit, windowBit, Bool.and_eq_true, decide_eq_true_eq] at h
      omega
    refine ⟨fun y x => ?_, ?_⟩
    · show ((k.drawColumns r px b 8).drawRows (r + 1) px bs).fb.pixel y x = _
      rw [ip, cp, windowBit_cons, Bool.xor_assoc]
    · show ((k.drawColumns r px b 8).drawRows (r + 1) px bs).hit = true ↔ _
      rw [ih2, ch]
      constructor
      · rintro ((h | ⟨y, x, h1, h2⟩) | ⟨y, x, h1, h2⟩)
        · exact .inl h
        · refine .inr ⟨y, x, h1, ?_⟩
          have := disjoint y x
          rw [windowBit_cons]; simp_all
        · have hd := disjoint y x
          rw [cp] at h1
          refine .inr ⟨y, x, ?_, ?_⟩
          · simp_all
          · rw [windowBit_cons]; simp_all
      · rintro (h | ⟨y, x, h1, h2⟩)
        · exact .inl (.inl h)
        · rw [windowBit_cons] at h2
          by_cases hc : columnBit r px b 8 y x = true
          · exact .inl (.inr ⟨y, x, h1, hc⟩)
          · refine .inr ⟨y, x, ?_, ?_⟩
            · rw [cp]; simp_all
            · simp_all

end Sys2Proof.Machine
end

