-- ==== Sys2Proof/Laws/Memory.lean ====
section
/-! SUPPORT. Memory: a read after a write, and every memory operation keeps the canonical form. -/

namespace Sys2Proof.Machine

/-! ### Reading through the parts of a write -/

theorem Memory.read_filter (m : Memory) (font : Font) (a b : Nat) :
    Memory.read (m.filter (fun c => c.1 != a)) font b = if b = a then Memory.unlisted font b else m.read font b := by
  induction m with
  | nil => simp [Memory.read]
  | cons c m ih =>
    obtain ⟨d, w⟩ := c
    by_cases h : d = a
    · subst h
      by_cases hb : b = d <;> simp_all [Memory.read]
    · by_cases hb : b = a
      · subst hb
        have : ¬ b = d := fun e => h e.symm
        simp_all [Memory.read]
      · simp_all [Memory.read]

theorem Memory.read_insert (m : Memory) (font : Font) (a b : Nat) (v : Byte) (h : ∀ c ∈ m, c.1 ≠ a) :
    (Memory.insert m a v).read font b = if b = a then v else m.read font b := by
  induction m with
  | nil => simp [Memory.insert, Memory.read]
  | cons c m ih =>
    obtain ⟨d, w⟩ := c
    have hd : d ≠ a := h (d, w) (by simp)
    have ih := ih (fun c hc => h c (by simp [hc]))
    unfold Memory.insert
    split
    · simp [Memory.read]
    · simp only [Memory.read, ih]
      by_cases hb : b = a
      · subst hb; simp [Ne.symm hd]
      · simp [hb]

/-- The law of memory: a write changes the addressed byte only, and a read of it gives the byte written (R56). It
holds of every list of cells, canonical or not. -/
@[simp] theorem Memory.read_write (m : Memory) (font : Font) (a b : Nat) (v : Byte) :
    (m.write font a v).read font b = if b = a then v else m.read font b := by
  unfold Memory.write
  split
  · rename_i h
    rw [Memory.read_filter]
    by_cases hb : b = a <;> simp [hb, h]
  · show (Memory.insert (m.filter fun c => c.1 != a) a v).read font b = _
    rw [Memory.read_insert _ _ _ _ _ (by simp)]
    by_cases hb : b = a <;> simp [hb, Memory.read_filter]

/-- Writing bytes at ascending addresses: inside the block the byte written, outside it what was there. -/
theorem Memory.read_writeBytes (m : Memory) (font : Font) (a b : Nat) (bs : List Byte) :
    (m.writeBytes font a bs).read font b =
      if h : a ≤ b ∧ b < a + bs.length then bs[b - a]'(by omega) else m.read font b := by
  induction bs generalizing m a with
  | nil => simp [Memory.writeBytes]
  | cons v bs ih =>
    rw [Memory.writeBytes, ih]
    by_cases h : a + 1 ≤ b ∧ b < a + 1 + bs.length
    · have h2 : a ≤ b ∧ b < a + (v :: bs).length := by simp; omega
      have h3 : b - a = b - (a + 1) + 1 := by omega
      simp only [h, h2, and_self, dite_true, h3, List.getElem_cons_succ]
    · by_cases hb : b = a
      · subst hb; simp
      · have h2 : ¬ (a ≤ b ∧ b < a + (v :: bs).length) := by simp; omega
        rw [dif_neg h, dif_neg h2, Memory.read_write, if_neg hb]

/-! ### At the level of the state -/

/-- What a store leaves in each byte (R52, R56). -/
theorem State.store_byte (s : State) (a b : Nat) (bs : List Byte) :
    (s.store a bs).byte b = if h : a ≤ b ∧ b < a + bs.length then bs[b - a]'(by omega) else s.byte b :=
  Memory.read_writeBytes s.mem s.font a b bs

@[simp] theorem State.bytes_length (s : State) (a n : Nat) : (s.bytes a n).length = n := by
  induction n generalizing a with
  | zero => rfl
  | succ n ih => simp [State.bytes, ih]

/-- Byte `k` of `n` bytes read from `a` is the byte at `a + k` (R52). -/
theorem State.bytes_getElem (s : State) (a n k : Nat) (h : k < (s.bytes a n).length) :
    (s.bytes a n)[k] = s.byte (a + k) := by
  induction n generalizing a k with
  | zero => simp at h
  | succ n ih =>
    cases k with
    | zero => rfl
    | succ k =>
      simp only [State.bytes, List.getElem_cons_succ]
      rw [ih, Nat.add_assoc, Nat.add_comm 1 k]

/-- After a reset the bytes at 0x050..0x09F are FONT, whatever the table (R36, R37). -/
theorem Memory.unlisted_font (font : Font) (k : Fin 80) : Memory.unlisted font (0x050 + k.val) = font[k] := by
  have h : 0x050 ≤ 0x050 + k.val ∧ 0x050 + k.val ≤ 0x09F := by omega
  unfold Memory.unlisted
  rw [dif_pos h]
  simp

/-- Outside 0x050..0x09F the reset contents are zero, whatever the table (R36). -/
theorem Memory.unlisted_outside (font : Font) (a : Nat) (h : a < 0x050 ∨ 0x09F < a) : Memory.unlisted font a = 0 := by
  unfold Memory.unlisted
  rw [dif_neg (by omega)]

/-! ### The canonical form -/

theorem Memory.mem_insert (m : Memory) (a : Nat) (v : Byte) (c : Host.Cell) :
    c ∈ Memory.insert m a v ↔ c = (a, v) ∨ c ∈ m := by
  induction m with
  | nil => simp [Memory.insert]
  | cons d m ih =>
    unfold Memory.insert
    split
    · simp
    · simp only [List.mem_cons, ih]; tauto

theorem Memory.insert_rising (m : Memory) (a : Nat) (v : Byte)
    (hm : m.Pairwise (fun c d => c.1 < d.1)) (ha : ∀ c ∈ m, c.1 ≠ a) :
    (Memory.insert m a v).Pairwise (fun c d => c.1 < d.1) := by
  induction m with
  | nil => simp [Memory.insert]
  | cons d m ih =>
    obtain ⟨b, w⟩ := d
    have hb : b ≠ a := ha (b, w) (by simp)
    rw [List.pairwise_cons] at hm
    unfold Memory.insert
    split
    · rename_i hlt
      refine List.pairwise_cons.2 ⟨?_, List.pairwise_cons.2 hm⟩
      intro c hc
      rcases List.mem_cons.1 hc with rfl | hc
      · exact hlt
      · exact Nat.lt_trans hlt (hm.1 c hc)
    · refine List.pairwise_cons.2 ⟨?_, ih hm.2 (fun c hc => ha c (by simp [hc]))⟩
      intro c hc
      rcases (Memory.mem_insert m a v c).1 hc with rfl | hc
      · show b < a; omega
      · exact hm.1 c hc

/-- A write inside 0x000..0xFFF keeps the canonical form. -/
theorem Memory.write_wf (m : Memory) (font : Font) (a : Nat) (v : Byte) (hm : m.wf font) (ha : a ≤ 0xFFF) :
    (m.write font a v).wf font := by
  have hf : Memory.wf (m.filter (fun c => c.1 != a)) font :=
    ⟨hm.1.filter _, fun c hc => hm.2 c (List.mem_filter.1 hc).1⟩
  unfold Memory.write
  split
  · exact hf
  · rename_i hv
    refine ⟨Memory.insert_rising _ _ _ hf.1 (by simp), fun c hc => ?_⟩
    rcases (Memory.mem_insert _ _ _ _).1 hc with rfl | hc
    · exact ⟨ha, hv⟩
    · exact hf.2 c hc

/-- Writing bytes that end inside memory keeps the canonical form. -/
theorem Memory.writeBytes_wf (m : Memory) (font : Font) (a : Nat) (bs : List Byte) (hm : m.wf font)
    (ha : a + bs.length ≤ 0x1000) :
    (m.writeBytes font a bs).wf font := by
  induction bs generalizing m a with
  | nil => exact hm
  | cons b bs ih =>
    simp only [List.length_cons] at ha
    exact ih _ _ (Memory.write_wf m font a b hm (by omega)) (by omega)

/-- A store that ends inside memory keeps the invariant. -/
theorem State.store_wf {s : State} {a : Nat} {bs : List Byte} (hs : s.wf) (ha : a + bs.length ≤ 0x1000) :
    (s.store a bs).wf := Memory.writeBytes_wf s.mem s.font a bs hs ha

end Sys2Proof.Machine
end

