-- ==== Sys2Proof/Laws/State.lean ====
section
/-! SUPPORT. What each update of State leaves in each field, so that no later proof unfolds a record update. -/

namespace Sys2Proof.Machine

variable (s : State)

/-! ### `setReg` -/

@[simp] theorem State.setReg_v (x : RegIdx) (b : Byte) : (s.setReg x b).v = s.v.set x b := rfl
@[simp] theorem State.setReg_pc (x : RegIdx) (b : Byte) : (s.setReg x b).pc = s.pc := rfl
@[simp] theorem State.setReg_i (x : RegIdx) (b : Byte) : (s.setReg x b).i = s.i := rfl
@[simp] theorem State.setReg_sp (x : RegIdx) (b : Byte) : (s.setReg x b).sp = s.sp := rfl
@[simp] theorem State.setReg_stack (x : RegIdx) (b : Byte) : (s.setReg x b).stack = s.stack := rfl
@[simp] theorem State.setReg_dt (x : RegIdx) (b : Byte) : (s.setReg x b).dt = s.dt := rfl
@[simp] theorem State.setReg_st (x : RegIdx) (b : Byte) : (s.setReg x b).st = s.st := rfl
@[simp] theorem State.setReg_key (x : RegIdx) (b : Byte) : (s.setReg x b).key = s.key := rfl
@[simp] theorem State.setReg_fb (x : RegIdx) (b : Byte) : (s.setReg x b).fb = s.fb := rfl
@[simp] theorem State.setReg_mem (x : RegIdx) (b : Byte) : (s.setReg x b).mem = s.mem := rfl
@[simp] theorem State.setReg_errflags (x : RegIdx) (b : Byte) : (s.setReg x b).errflags = s.errflags := rfl
@[simp] theorem State.setReg_font (x : RegIdx) (b : Byte) : (s.setReg x b).font = s.font := rfl
@[simp] theorem State.setReg_draws (x : RegIdx) (b : Byte) : (s.setReg x b).draws = s.draws := rfl
@[simp] theorem State.setReg_byte (x : RegIdx) (b : Byte) (a : Nat) : (s.setReg x b).byte a = s.byte a := rfl

/-! ### `jumpTo` -/

@[simp] theorem State.jumpTo_v (a : Word) : (s.jumpTo a).v = s.v := rfl
@[simp] theorem State.jumpTo_pc (a : Word) : (s.jumpTo a).pc = a := rfl
@[simp] theorem State.jumpTo_i (a : Word) : (s.jumpTo a).i = s.i := rfl
@[simp] theorem State.jumpTo_sp (a : Word) : (s.jumpTo a).sp = s.sp := rfl
@[simp] theorem State.jumpTo_stack (a : Word) : (s.jumpTo a).stack = s.stack := rfl
@[simp] theorem State.jumpTo_dt (a : Word) : (s.jumpTo a).dt = s.dt := rfl
@[simp] theorem State.jumpTo_st (a : Word) : (s.jumpTo a).st = s.st := rfl
@[simp] theorem State.jumpTo_key (a : Word) : (s.jumpTo a).key = s.key := rfl
@[simp] theorem State.jumpTo_fb (a : Word) : (s.jumpTo a).fb = s.fb := rfl
@[simp] theorem State.jumpTo_mem (a : Word) : (s.jumpTo a).mem = s.mem := rfl
@[simp] theorem State.jumpTo_errflags (a : Word) : (s.jumpTo a).errflags = s.errflags := rfl
@[simp] theorem State.jumpTo_font (a : Word) : (s.jumpTo a).font = s.font := rfl
@[simp] theorem State.jumpTo_draws (a : Word) : (s.jumpTo a).draws = s.draws := rfl
@[simp] theorem State.jumpTo_reg (a : Word) (r : RegIdx) : (s.jumpTo a).reg r = s.reg r := rfl
@[simp] theorem State.jumpTo_byte (w : Word) (a : Nat) : (s.jumpTo w).byte a = s.byte a := rfl

/-! ### `advance` -/

@[simp] theorem State.advance_v : (s.advance).v = s.v := rfl
@[simp] theorem State.advance_pc : (s.advance).pc = s.pc + 2 := rfl
@[simp] theorem State.advance_i : (s.advance).i = s.i := rfl
@[simp] theorem State.advance_sp : (s.advance).sp = s.sp := rfl
@[simp] theorem State.advance_stack : (s.advance).stack = s.stack := rfl
@[simp] theorem State.advance_dt : (s.advance).dt = s.dt := rfl
@[simp] theorem State.advance_st : (s.advance).st = s.st := rfl
@[simp] theorem State.advance_key : (s.advance).key = s.key := rfl
@[simp] theorem State.advance_fb : (s.advance).fb = s.fb := rfl
@[simp] theorem State.advance_mem : (s.advance).mem = s.mem := rfl
@[simp] theorem State.advance_errflags : (s.advance).errflags = s.errflags := rfl
@[simp] theorem State.advance_font : (s.advance).font = s.font := rfl
@[simp] theorem State.advance_draws : (s.advance).draws = s.draws := rfl
@[simp] theorem State.advance_reg (r : RegIdx) : (s.advance).reg r = s.reg r := rfl
@[simp] theorem State.advance_byte (a : Nat) : (s.advance).byte a = s.byte a := rfl

/-! ### `rewind` -/

@[simp] theorem State.rewind_v : (s.rewind).v = s.v := rfl
@[simp] theorem State.rewind_pc : (s.rewind).pc = s.pc - 2 := rfl
@[simp] theorem State.rewind_i : (s.rewind).i = s.i := rfl
@[simp] theorem State.rewind_sp : (s.rewind).sp = s.sp := rfl
@[simp] theorem State.rewind_stack : (s.rewind).stack = s.stack := rfl
@[simp] theorem State.rewind_dt : (s.rewind).dt = s.dt := rfl
@[simp] theorem State.rewind_st : (s.rewind).st = s.st := rfl
@[simp] theorem State.rewind_key : (s.rewind).key = s.key := rfl
@[simp] theorem State.rewind_fb : (s.rewind).fb = s.fb := rfl
@[simp] theorem State.rewind_mem : (s.rewind).mem = s.mem := rfl
@[simp] theorem State.rewind_errflags : (s.rewind).errflags = s.errflags := rfl
@[simp] theorem State.rewind_font : (s.rewind).font = s.font := rfl
@[simp] theorem State.rewind_draws : (s.rewind).draws = s.draws := rfl
@[simp] theorem State.rewind_reg (r : RegIdx) : (s.rewind).reg r = s.reg r := rfl
@[simp] theorem State.rewind_byte (a : Nat) : (s.rewind).byte a = s.byte a := rfl

/-! ### `setI` -/

@[simp] theorem State.setI_v (a : Word) : (s.setI a).v = s.v := rfl
@[simp] theorem State.setI_pc (a : Word) : (s.setI a).pc = s.pc := rfl
@[simp] theorem State.setI_i (a : Word) : (s.setI a).i = a := rfl
@[simp] theorem State.setI_sp (a : Word) : (s.setI a).sp = s.sp := rfl
@[simp] theorem State.setI_stack (a : Word) : (s.setI a).stack = s.stack := rfl
@[simp] theorem State.setI_dt (a : Word) : (s.setI a).dt = s.dt := rfl
@[simp] theorem State.setI_st (a : Word) : (s.setI a).st = s.st := rfl
@[simp] theorem State.setI_key (a : Word) : (s.setI a).key = s.key := rfl
@[simp] theorem State.setI_fb (a : Word) : (s.setI a).fb = s.fb := rfl
@[simp] theorem State.setI_mem (a : Word) : (s.setI a).mem = s.mem := rfl
@[simp] theorem State.setI_errflags (a : Word) : (s.setI a).errflags = s.errflags := rfl
@[simp] theorem State.setI_font (a : Word) : (s.setI a).font = s.font := rfl
@[simp] theorem State.setI_draws (a : Word) : (s.setI a).draws = s.draws := rfl
@[simp] theorem State.setI_reg (a : Word) (r : RegIdx) : (s.setI a).reg r = s.reg r := rfl
@[simp] theorem State.setI_byte (w : Word) (a : Nat) : (s.setI w).byte a = s.byte a := rfl

/-! ### `setDt` -/

@[simp] theorem State.setDt_v (b : Byte) : (s.setDt b).v = s.v := rfl
@[simp] theorem State.setDt_pc (b : Byte) : (s.setDt b).pc = s.pc := rfl
@[simp] theorem State.setDt_i (b : Byte) : (s.setDt b).i = s.i := rfl
@[simp] theorem State.setDt_sp (b : Byte) : (s.setDt b).sp = s.sp := rfl
@[simp] theorem State.setDt_stack (b : Byte) : (s.setDt b).stack = s.stack := rfl
@[simp] theorem State.setDt_dt (b : Byte) : (s.setDt b).dt = b := rfl
@[simp] theorem State.setDt_st (b : Byte) : (s.setDt b).st = s.st := rfl
@[simp] theorem State.setDt_key (b : Byte) : (s.setDt b).key = s.key := rfl
@[simp] theorem State.setDt_fb (b : Byte) : (s.setDt b).fb = s.fb := rfl
@[simp] theorem State.setDt_mem (b : Byte) : (s.setDt b).mem = s.mem := rfl
@[simp] theorem State.setDt_errflags (b : Byte) : (s.setDt b).errflags = s.errflags := rfl
@[simp] theorem State.setDt_font (b : Byte) : (s.setDt b).font = s.font := rfl
@[simp] theorem State.setDt_draws (b : Byte) : (s.setDt b).draws = s.draws := rfl
@[simp] theorem State.setDt_reg (b : Byte) (r : RegIdx) : (s.setDt b).reg r = s.reg r := rfl
@[simp] theorem State.setDt_byte (b : Byte) (a : Nat) : (s.setDt b).byte a = s.byte a := rfl

/-! ### `setSt` -/

@[simp] theorem State.setSt_v (b : Byte) : (s.setSt b).v = s.v := rfl
@[simp] theorem State.setSt_pc (b : Byte) : (s.setSt b).pc = s.pc := rfl
@[simp] theorem State.setSt_i (b : Byte) : (s.setSt b).i = s.i := rfl
@[simp] theorem State.setSt_sp (b : Byte) : (s.setSt b).sp = s.sp := rfl
@[simp] theorem State.setSt_stack (b : Byte) : (s.setSt b).stack = s.stack := rfl
@[simp] theorem State.setSt_dt (b : Byte) : (s.setSt b).dt = s.dt := rfl
@[simp] theorem State.setSt_st (b : Byte) : (s.setSt b).st = b := rfl
@[simp] theorem State.setSt_key (b : Byte) : (s.setSt b).key = s.key := rfl
@[simp] theorem State.setSt_fb (b : Byte) : (s.setSt b).fb = s.fb := rfl
@[simp] theorem State.setSt_mem (b : Byte) : (s.setSt b).mem = s.mem := rfl
@[simp] theorem State.setSt_errflags (b : Byte) : (s.setSt b).errflags = s.errflags := rfl
@[simp] theorem State.setSt_font (b : Byte) : (s.setSt b).font = s.font := rfl
@[simp] theorem State.setSt_draws (b : Byte) : (s.setSt b).draws = s.draws := rfl
@[simp] theorem State.setSt_reg (b : Byte) (r : RegIdx) : (s.setSt b).reg r = s.reg r := rfl
@[simp] theorem State.setSt_byte (b : Byte) (a : Nat) : (s.setSt b).byte a = s.byte a := rfl

/-! ### `setMem` -/

@[simp] theorem State.setMem_v (m : Memory) : (s.setMem m).v = s.v := rfl
@[simp] theorem State.setMem_pc (m : Memory) : (s.setMem m).pc = s.pc := rfl
@[simp] theorem State.setMem_i (m : Memory) : (s.setMem m).i = s.i := rfl
@[simp] theorem State.setMem_sp (m : Memory) : (s.setMem m).sp = s.sp := rfl
@[simp] theorem State.setMem_stack (m : Memory) : (s.setMem m).stack = s.stack := rfl
@[simp] theorem State.setMem_dt (m : Memory) : (s.setMem m).dt = s.dt := rfl
@[simp] theorem State.setMem_st (m : Memory) : (s.setMem m).st = s.st := rfl
@[simp] theorem State.setMem_key (m : Memory) : (s.setMem m).key = s.key := rfl
@[simp] theorem State.setMem_fb (m : Memory) : (s.setMem m).fb = s.fb := rfl
@[simp] theorem State.setMem_mem (m : Memory) : (s.setMem m).mem = m := rfl
@[simp] theorem State.setMem_errflags (m : Memory) : (s.setMem m).errflags = s.errflags := rfl
@[simp] theorem State.setMem_font (m : Memory) : (s.setMem m).font = s.font := rfl
@[simp] theorem State.setMem_draws (m : Memory) : (s.setMem m).draws = s.draws := rfl
@[simp] theorem State.setMem_reg (m : Memory) (r : RegIdx) : (s.setMem m).reg r = s.reg r := rfl
@[simp] theorem State.setMem_byte (m : Memory) (a : Nat) : (s.setMem m).byte a = m.read s.font a := rfl

/-! ### `store` -/

@[simp] theorem State.store_v (b : Nat) (bytes : List Byte) : (s.store b bytes).v = s.v := rfl
@[simp] theorem State.store_pc (b : Nat) (bytes : List Byte) : (s.store b bytes).pc = s.pc := rfl
@[simp] theorem State.store_i (b : Nat) (bytes : List Byte) : (s.store b bytes).i = s.i := rfl
@[simp] theorem State.store_sp (b : Nat) (bytes : List Byte) : (s.store b bytes).sp = s.sp := rfl
@[simp] theorem State.store_stack (b : Nat) (bytes : List Byte) : (s.store b bytes).stack = s.stack := rfl
@[simp] theorem State.store_dt (b : Nat) (bytes : List Byte) : (s.store b bytes).dt = s.dt := rfl
@[simp] theorem State.store_st (b : Nat) (bytes : List Byte) : (s.store b bytes).st = s.st := rfl
@[simp] theorem State.store_key (b : Nat) (bytes : List Byte) : (s.store b bytes).key = s.key := rfl
@[simp] theorem State.store_fb (b : Nat) (bytes : List Byte) : (s.store b bytes).fb = s.fb := rfl
@[simp] theorem State.store_mem (b : Nat) (bytes : List Byte) : (s.store b bytes).mem = s.mem.writeBytes s.font b bytes := rfl
@[simp] theorem State.store_errflags (b : Nat) (bytes : List Byte) : (s.store b bytes).errflags = s.errflags := rfl
@[simp] theorem State.store_font (b : Nat) (bytes : List Byte) : (s.store b bytes).font = s.font := rfl
@[simp] theorem State.store_draws (b : Nat) (bytes : List Byte) : (s.store b bytes).draws = s.draws := rfl
@[simp] theorem State.store_reg (b : Nat) (bytes : List Byte) (r : RegIdx) : (s.store b bytes).reg r = s.reg r := rfl

/-! ### `setFb` -/

@[simp] theorem State.setFb_v (f : Framebuffer) : (s.setFb f).v = s.v := rfl
@[simp] theorem State.setFb_pc (f : Framebuffer) : (s.setFb f).pc = s.pc := rfl
@[simp] theorem State.setFb_i (f : Framebuffer) : (s.setFb f).i = s.i := rfl
@[simp] theorem State.setFb_sp (f : Framebuffer) : (s.setFb f).sp = s.sp := rfl
@[simp] theorem State.setFb_stack (f : Framebuffer) : (s.setFb f).stack = s.stack := rfl
@[simp] theorem State.setFb_dt (f : Framebuffer) : (s.setFb f).dt = s.dt := rfl
@[simp] theorem State.setFb_st (f : Framebuffer) : (s.setFb f).st = s.st := rfl
@[simp] theorem State.setFb_key (f : Framebuffer) : (s.setFb f).key = s.key := rfl
@[simp] theorem State.setFb_fb (f : Framebuffer) : (s.setFb f).fb = f := rfl
@[simp] theorem State.setFb_mem (f : Framebuffer) : (s.setFb f).mem = s.mem := rfl
@[simp] theorem State.setFb_errflags (f : Framebuffer) : (s.setFb f).errflags = s.errflags := rfl
@[simp] theorem State.setFb_font (f : Framebuffer) : (s.setFb f).font = s.font := rfl
@[simp] theorem State.setFb_draws (f : Framebuffer) : (s.setFb f).draws = s.draws := rfl
@[simp] theorem State.setFb_reg (f : Framebuffer) (r : RegIdx) : (s.setFb f).reg r = s.reg r := rfl
@[simp] theorem State.setFb_byte (f : Framebuffer) (a : Nat) : (s.setFb f).byte a = s.byte a := rfl

/-! ### `setKey` -/

@[simp] theorem State.setKey_v (k : Fin 16) (p : Bool) : (s.setKey k p).v = s.v := rfl
@[simp] theorem State.setKey_pc (k : Fin 16) (p : Bool) : (s.setKey k p).pc = s.pc := rfl
@[simp] theorem State.setKey_i (k : Fin 16) (p : Bool) : (s.setKey k p).i = s.i := rfl
@[simp] theorem State.setKey_sp (k : Fin 16) (p : Bool) : (s.setKey k p).sp = s.sp := rfl
@[simp] theorem State.setKey_stack (k : Fin 16) (p : Bool) : (s.setKey k p).stack = s.stack := rfl
@[simp] theorem State.setKey_dt (k : Fin 16) (p : Bool) : (s.setKey k p).dt = s.dt := rfl
@[simp] theorem State.setKey_st (k : Fin 16) (p : Bool) : (s.setKey k p).st = s.st := rfl
@[simp] theorem State.setKey_key (k : Fin 16) (p : Bool) : (s.setKey k p).key = s.key.set k p := rfl
@[simp] theorem State.setKey_fb (k : Fin 16) (p : Bool) : (s.setKey k p).fb = s.fb := rfl
@[simp] theorem State.setKey_mem (k : Fin 16) (p : Bool) : (s.setKey k p).mem = s.mem := rfl
@[simp] theorem State.setKey_errflags (k : Fin 16) (p : Bool) : (s.setKey k p).errflags = s.errflags := rfl
@[simp] theorem State.setKey_font (k : Fin 16) (p : Bool) : (s.setKey k p).font = s.font := rfl
@[simp] theorem State.setKey_draws (k : Fin 16) (p : Bool) : (s.setKey k p).draws = s.draws := rfl
@[simp] theorem State.setKey_reg (k : Fin 16) (p : Bool) (r : RegIdx) : (s.setKey k p).reg r = s.reg r := rfl
@[simp] theorem State.setKey_byte (k : Fin 16) (p : Bool) (a : Nat) : (s.setKey k p).byte a = s.byte a := rfl

/-! ### `countDraw` -/

@[simp] theorem State.countDraw_v : (s.countDraw).v = s.v := rfl
@[simp] theorem State.countDraw_pc : (s.countDraw).pc = s.pc := rfl
@[simp] theorem State.countDraw_i : (s.countDraw).i = s.i := rfl
@[simp] theorem State.countDraw_sp : (s.countDraw).sp = s.sp := rfl
@[simp] theorem State.countDraw_stack : (s.countDraw).stack = s.stack := rfl
@[simp] theorem State.countDraw_dt : (s.countDraw).dt = s.dt := rfl
@[simp] theorem State.countDraw_st : (s.countDraw).st = s.st := rfl
@[simp] theorem State.countDraw_key : (s.countDraw).key = s.key := rfl
@[simp] theorem State.countDraw_fb : (s.countDraw).fb = s.fb := rfl
@[simp] theorem State.countDraw_mem : (s.countDraw).mem = s.mem := rfl
@[simp] theorem State.countDraw_errflags : (s.countDraw).errflags = s.errflags := rfl
@[simp] theorem State.countDraw_font : (s.countDraw).font = s.font := rfl
@[simp] theorem State.countDraw_draws : (s.countDraw).draws = s.draws + 1 := rfl
@[simp] theorem State.countDraw_reg (r : RegIdx) : (s.countDraw).reg r = s.reg r := rfl
@[simp] theorem State.countDraw_byte (a : Nat) : (s.countDraw).byte a = s.byte a := rfl

/-! ### `report` -/

@[simp] theorem State.report_v (k : ErrorKind) : (s.report k).v = s.v := rfl
@[simp] theorem State.report_pc (k : ErrorKind) : (s.report k).pc = s.pc := rfl
@[simp] theorem State.report_i (k : ErrorKind) : (s.report k).i = s.i := rfl
@[simp] theorem State.report_sp (k : ErrorKind) : (s.report k).sp = s.sp := rfl
@[simp] theorem State.report_stack (k : ErrorKind) : (s.report k).stack = s.stack := rfl
@[simp] theorem State.report_dt (k : ErrorKind) : (s.report k).dt = s.dt := rfl
@[simp] theorem State.report_st (k : ErrorKind) : (s.report k).st = s.st := rfl
@[simp] theorem State.report_key (k : ErrorKind) : (s.report k).key = s.key := rfl
@[simp] theorem State.report_fb (k : ErrorKind) : (s.report k).fb = s.fb := rfl
@[simp] theorem State.report_mem (k : ErrorKind) : (s.report k).mem = s.mem := rfl
@[simp] theorem State.report_errflags (k : ErrorKind) : (s.report k).errflags = s.errflags ||| k.flagBit := rfl
@[simp] theorem State.report_font (k : ErrorKind) : (s.report k).font = s.font := rfl
@[simp] theorem State.report_draws (k : ErrorKind) : (s.report k).draws = s.draws := rfl
@[simp] theorem State.report_reg (k : ErrorKind) (r : RegIdx) : (s.report k).reg r = s.reg r := rfl
@[simp] theorem State.report_byte (k : ErrorKind) (a : Nat) : (s.report k).byte a = s.byte a := rfl

/-! ### `pop` -/

@[simp] theorem State.pop_v : (s.pop).v = s.v := rfl
@[simp] theorem State.pop_pc : (s.pop).pc = s.pc := rfl
@[simp] theorem State.pop_i : (s.pop).i = s.i := rfl
@[simp] theorem State.pop_sp : (s.pop).sp = ⟨s.sp.val - 1, by omega⟩ := rfl
@[simp] theorem State.pop_stack : (s.pop).stack = s.stack := rfl
@[simp] theorem State.pop_dt : (s.pop).dt = s.dt := rfl
@[simp] theorem State.pop_st : (s.pop).st = s.st := rfl
@[simp] theorem State.pop_key : (s.pop).key = s.key := rfl
@[simp] theorem State.pop_fb : (s.pop).fb = s.fb := rfl
@[simp] theorem State.pop_mem : (s.pop).mem = s.mem := rfl
@[simp] theorem State.pop_errflags : (s.pop).errflags = s.errflags := rfl
@[simp] theorem State.pop_font : (s.pop).font = s.font := rfl
@[simp] theorem State.pop_draws : (s.pop).draws = s.draws := rfl
@[simp] theorem State.pop_reg (r : RegIdx) : (s.pop).reg r = s.reg r := rfl
@[simp] theorem State.pop_byte (a : Nat) : (s.pop).byte a = s.byte a := rfl

/-! ### `setReg` and `setFlag`, read back -/

@[simp] theorem State.setReg_reg (x r : RegIdx) (b : Byte) :
    (s.setReg x b).reg r = if x = r then b else s.reg r := by
  simp [State.reg, State.setReg, Vector.getElem_set, Fin.val_inj]

@[simp] theorem State.setFlag_eq (flag : Bool) : s.setFlag flag = s.setReg 15 (flagByte flag) := rfl

@[simp] theorem State.setFlagThenReg_eq (x : RegIdx) (flag : Bool) (b : Byte) :
    s.setFlagThenReg x flag b = (s.setReg 15 (flagByte flag)).setReg x b := rfl

/-! ### `push` -/

@[simp] theorem State.push_v (a : Word) : (s.push a).v = s.v := by unfold State.push; split <;> rfl
@[simp] theorem State.push_pc (a : Word) : (s.push a).pc = s.pc := by unfold State.push; split <;> rfl
@[simp] theorem State.push_i (a : Word) : (s.push a).i = s.i := by unfold State.push; split <;> rfl
@[simp] theorem State.push_dt (a : Word) : (s.push a).dt = s.dt := by unfold State.push; split <;> rfl
@[simp] theorem State.push_st (a : Word) : (s.push a).st = s.st := by unfold State.push; split <;> rfl
@[simp] theorem State.push_key (a : Word) : (s.push a).key = s.key := by unfold State.push; split <;> rfl
@[simp] theorem State.push_fb (a : Word) : (s.push a).fb = s.fb := by unfold State.push; split <;> rfl
@[simp] theorem State.push_mem (a : Word) : (s.push a).mem = s.mem := by unfold State.push; split <;> rfl
@[simp] theorem State.push_errflags (a : Word) : (s.push a).errflags = s.errflags := by unfold State.push; split <;> rfl
@[simp] theorem State.push_font (a : Word) : (s.push a).font = s.font := by unfold State.push; split <;> rfl
@[simp] theorem State.push_draws (a : Word) : (s.push a).draws = s.draws := by unfold State.push; split <;> rfl
@[simp] theorem State.push_reg (a : Word) (r : RegIdx) : (s.push a).reg r = s.reg r := by
  unfold State.push; split <;> rfl
@[simp] theorem State.push_byte (w : Word) (a : Nat) : (s.push w).byte a = s.byte a := by
  unfold State.push; split <;> rfl

/-- Below 16 entries, a push counts one more. -/
theorem State.push_sp (a : Word) (h : s.sp.val < 16) : (s.push a).sp.val = s.sp.val + 1 := by
  simp [State.push, h]

/-- Below 16 entries, a push writes the slot `STACK[SP]` and no other (R112). -/
theorem State.push_stack (a : Word) (h : s.sp.val < 16) (k : Fin 16) :
    (s.push a).stack[k] = if k.val = s.sp.val then a else s.stack[k] := by
  simp [State.push, h, Vector.getElem_set, eq_comm]

/-! ### `skipIf` -/

@[simp] theorem skipIf_v (c : Bool) : (skipIf c s).v = s.v := by cases c <;> rfl
@[simp] theorem skipIf_i (c : Bool) : (skipIf c s).i = s.i := by cases c <;> rfl
@[simp] theorem skipIf_sp (c : Bool) : (skipIf c s).sp = s.sp := by cases c <;> rfl
@[simp] theorem skipIf_stack (c : Bool) : (skipIf c s).stack = s.stack := by cases c <;> rfl
@[simp] theorem skipIf_dt (c : Bool) : (skipIf c s).dt = s.dt := by cases c <;> rfl
@[simp] theorem skipIf_st (c : Bool) : (skipIf c s).st = s.st := by cases c <;> rfl
@[simp] theorem skipIf_key (c : Bool) : (skipIf c s).key = s.key := by cases c <;> rfl
@[simp] theorem skipIf_fb (c : Bool) : (skipIf c s).fb = s.fb := by cases c <;> rfl
@[simp] theorem skipIf_mem (c : Bool) : (skipIf c s).mem = s.mem := by cases c <;> rfl
@[simp] theorem skipIf_errflags (c : Bool) : (skipIf c s).errflags = s.errflags := by cases c <;> rfl
@[simp] theorem skipIf_font (c : Bool) : (skipIf c s).font = s.font := by cases c <;> rfl
@[simp] theorem skipIf_draws (c : Bool) : (skipIf c s).draws = s.draws := by cases c <;> rfl
@[simp] theorem skipIf_reg (c : Bool) (r : RegIdx) : (skipIf c s).reg r = s.reg r := by cases c <;> rfl

@[simp] theorem skipIf_byte (c : Bool) (a : Nat) : (skipIf c s).byte a = s.byte a := by cases c <;> rfl

@[simp] theorem skipIf_pc (c : Bool) : (skipIf c s).pc = if c then s.pc + 2 else s.pc := by cases c <;> rfl

/-! ### `loadRegs` -/

@[simp] theorem loadRegs_pc (n : Nat) : (loadRegs s n).pc = s.pc := by
  induction n with
  | zero => rfl
  | succ n ih => unfold loadRegs; split <;> simp [ih]
@[simp] theorem loadRegs_i (n : Nat) : (loadRegs s n).i = s.i := by
  induction n with
  | zero => rfl
  | succ n ih => unfold loadRegs; split <;> simp [ih]
@[simp] theorem loadRegs_sp (n : Nat) : (loadRegs s n).sp = s.sp := by
  induction n with
  | zero => rfl
  | succ n ih => unfold loadRegs; split <;> simp [ih]
@[simp] theorem loadRegs_stack (n : Nat) : (loadRegs s n).stack = s.stack := by
  induction n with
  | zero => rfl
  | succ n ih => unfold loadRegs; split <;> simp [ih]
@[simp] theorem loadRegs_dt (n : Nat) : (loadRegs s n).dt = s.dt := by
  induction n with
  | zero => rfl
  | succ n ih => unfold loadRegs; split <;> simp [ih]
@[simp] theorem loadRegs_st (n : Nat) : (loadRegs s n).st = s.st := by
  induction n with
  | zero => rfl
  | succ n ih => unfold loadRegs; split <;> simp [ih]
@[simp] theorem loadRegs_key (n : Nat) : (loadRegs s n).key = s.key := by
  induction n with
  | zero => rfl
  | succ n ih => unfold loadRegs; split <;> simp [ih]
@[simp] theorem loadRegs_fb (n : Nat) : (loadRegs s n).fb = s.fb := by
  induction n with
  | zero => rfl
  | succ n ih => unfold loadRegs; split <;> simp [ih]
@[simp] theorem loadRegs_mem (n : Nat) : (loadRegs s n).mem = s.mem := by
  induction n with
  | zero => rfl
  | succ n ih => unfold loadRegs; split <;> simp [ih]
@[simp] theorem loadRegs_errflags (n : Nat) : (loadRegs s n).errflags = s.errflags := by
  induction n with
  | zero => rfl
  | succ n ih => unfold loadRegs; split <;> simp [ih]
@[simp] theorem loadRegs_font (n : Nat) : (loadRegs s n).font = s.font := by
  induction n with
  | zero => rfl
  | succ n ih => unfold loadRegs; split <;> simp [ih]
@[simp] theorem loadRegs_draws (n : Nat) : (loadRegs s n).draws = s.draws := by
  induction n with
  | zero => rfl
  | succ n ih => unfold loadRegs; split <;> simp [ih]
@[simp] theorem loadRegs_byte (n : Nat) (a : Nat) : (loadRegs s n).byte a = s.byte a := by
  simp [State.byte]

/-- Loading `n` registers writes `V[0]`..`V[n-1]` from ascending addresses and no other register (R165). -/
theorem loadRegs_reg (n : Nat) (r : RegIdx) :
    (loadRegs s n).reg r = if r.val < n then s.byte (s.ea r.val) else s.reg r := by
  induction n with
  | zero => simp [loadRegs]
  | succ n ih =>
    unfold loadRegs
    split
    · rw [State.setReg_reg, ih]
      by_cases h1 : r.val = n
      · subst h1; simp
      · have h2 : ¬ (⟨n, by omega⟩ : RegIdx) = r := fun h => h1 (by rw [← h])
        have h3 : r.val < n + 1 ↔ r.val < n := by omega
        simp [h2, h3]
    · have h3 : r.val < n := by omega
      rw [ih]; simp [h3, Nat.lt_succ_of_lt h3]

end Sys2Proof.Machine
end

