-- ==== Sys2Proof/Laws/Ops.lean ====
section
/-! SUPPORT. One lemma for each shared operation: what it can answer. -/

namespace Sys2Proof.Machine

/-! ### Error reports -/

@[simp] theorem attempt_none (s e : State) : attempt none s e = .next e := rfl

@[simp] theorem attempt_some (k : ErrorKind) (s e : State) : attempt (some k) s e = .next (s.report k) := rfl

/-- All a handler's frame can do: its effect when no error holds, else the report and nothing more (R245). -/
theorem attempt_eq_next {err : Option ErrorKind} {s e t : State} :
    attempt err s e = .next t ↔ (err = none ∧ t = e) ∨ ∃ k, err = some k ∧ t = s.report k := by
  cases err <;> simp [attempt, raise, eq_comm]

/-- A handler's frame never stops. -/
theorem attempt_answers (err : Option ErrorKind) (s e : State) : ∃ t, attempt err s e = .next t := by
  cases err <;> exact ⟨_, rfl⟩

theorem blockError_eq_none (s : State) (n : Nat) : blockError s n = none ↔ (n = 0 ∨ s.i.toNat + n ≤ 0x1000) := by
  unfold blockError State.ea
  split <;> simp <;> omega

theorem blockError_eq_some (s : State) (n : Nat) (k : ErrorKind) :
    blockError s n = some k ↔ k = .outOfBounds ∧ 0 < n ∧ s.i.toNat + n > 0x1000 := by
  unfold blockError State.ea
  split
  · simp only [Option.some.injEq]
    constructor
    · intro h; exact ⟨h.symm, by omega⟩
    · intro h; exact h.1.symm
  · simp; omega

theorem indexError_eq_none (b : Byte) : indexError b = none ↔ b.toNat ≤ 15 := by
  unfold indexError; split <;> simp <;> omega

theorem indexError_eq_some (b : Byte) (k : ErrorKind) :
    indexError b = some k ↔ k = .invalidRegisterIndex ∧ b.toNat > 15 := by
  unfold indexError
  split <;> simp [eq_comm] <;> omega

theorem callError_eq_none (s : State) : callError s = none ↔ s.sp.val < 16 := by
  unfold callError; split <;> simp <;> omega

theorem callError_eq_some (s : State) (k : ErrorKind) :
    callError s = some k ↔ k = .callStack ∧ s.sp.val = 16 := by
  unfold callError
  split <;> simp_all [eq_comm]

theorem returnError_eq_none (s : State) : returnError s = none ↔ 0 < s.sp.val := by
  unfold returnError; split <;> simp <;> omega

theorem returnError_eq_some (s : State) (k : ErrorKind) :
    returnError s = some k ↔ k = .callStack ∧ s.sp.val = 0 := by
  unfold returnError
  split <;> simp_all [eq_comm]

/-! ### Fetch -/

/-- Above 0xFFE nothing can be fetched (R91). -/
theorem fetch_outside (s : State) (h : s.pc.toNat > 0xFFE) : fetch s = .error .outOfBounds := by
  simp [fetch, h]

/-- Inside, the fetch decodes the word of the two bytes at `PC`, high byte first (R51). -/
theorem fetch_inside (s : State) (h : s.pc.toNat ≤ 0xFFE) :
    fetch s = match decodeWord (wordOf (s.byte s.pc.toNat) (s.byte (s.pc.toNat + 1))) with
      | some i => .ok i
      | none => .error .unknownOpcode := by
  have h' : ¬ s.pc.toNat > 0xFFE := by omega
  simp only [fetch, h', if_false, State.fetchBytes, State.bytes, decodeBytes]
  cases decodeWord (wordOf (s.byte s.pc.toNat) (s.byte (s.pc.toNat + 1))) <;> rfl

/-- `fetches`, in the terms of claims, is a fetch that answers the instruction. -/
theorem fetches_iff (s : State) (i : Instr) : s.fetches i ↔ fetch s = .ok i := by
  unfold State.fetches
  by_cases h : s.pc.toNat ≤ 0xFFE
  · rw [fetch_inside s h, decodeBytes_pair]
    cases decodeWord (wordOf (s.byte s.pc.toNat) (s.byte (s.pc.toNat + 1))) <;> simp [h]
  · rw [fetch_outside s (by omega)]; simp [h]

/-- The bytes placed for a fetch are the bytes the fetch decodes. -/
theorem fetch_placeAtFetch (s : State) (hi lo : Byte) :
    fetch (s.placeAtFetch [hi, lo]) = match decodeWord (wordOf hi lo) with
      | some i => .ok i
      | none => .error .unknownOpcode := by
  have key : ∀ u : State, u.pc.toNat ≤ 0xFFE →
      fetch (u.store u.pc.toNat [hi, lo]) = match decodeWord (wordOf hi lo) with
        | some i => .ok i
        | none => .error .unknownOpcode := by
    intro u hu
    have h := fetch_inside (u.store u.pc.toNat [hi, lo]) hu
    simpa [State.store, Memory.writeBytes] using h
  unfold State.placeAtFetch
  split
  · exact key _ (by rw [State.jumpTo_pc]; decide)
  · exact key _ (by omega)

/-! ### Steps -/

/-- A handler whose error condition holds reports it and does nothing else (R244, R245). -/
theorem exec_of_handlerError {i : Instr} {s : State} {k : ErrorKind} (h : handlerError i s = some k) :
    exec i s = .next (s.report k) := by
  cases i <;> simp only [handlerError, reduceCtorEq] at h <;>
    simp only [exec, execRet, execCall, execDrw, execSkp, execSknp, execLdF, execLdB, execLdMemVx, execLdVxMem, h,
      attempt_some]

/-- A step whose `ERR_OUT` is an error is that report, after the fetch's advance (R244). -/
theorem step_of_stepError {s : State} {k : ErrorKind} (h : stepError s = some k) :
    step s = .next (s.advance.report k) := by
  unfold stepError at h
  unfold step
  cases hf : fetch s with
  | error e => rw [hf] at h; cases h; rfl
  | ok i => rw [hf] at h; exact exec_of_handlerError h

/-- All a step can do: report an error and advance, or run the fetched instruction, which meets no error
condition. -/
theorem step_cases (s : State) :
    (∃ k, stepError s = some k ∧ step s = .next (s.advance.report k)) ∨
    (∃ i, fetch s = .ok i ∧ handlerError i s.advance = none ∧ stepError s = none ∧
      step s = exec i s.advance) := by
  cases he : stepError s with
  | some k => exact .inl ⟨k, rfl, step_of_stepError he⟩
  | none =>
    unfold stepError at he
    cases hf : fetch s with
    | error k => simp [hf] at he
    | ok i => exact .inr ⟨i, rfl, by simpa [hf] using he, rfl, by simp [step, hf]⟩

end Sys2Proof.Machine
end

