-- ==== Sys2Proof/Laws/Frame.lean ====
section
/-! SUPPORT. The frame of each update: the parts of the state it may change. -/

namespace Sys2Proof.Machine

/-- A frame, part by part: to prove one, show each part that is not listed unchanged. -/
theorem keepsAllBut_of {changed : List Part} {s t : State} (h : ∀ p : Part, p ∈ changed ∨ p.same s t) :
    keepsAllBut changed s t := fun p hp => (h p).resolve_left hp

theorem Part.same_refl (p : Part) (s : State) : p.same s s := by cases p <;> simp [Part.same]

theorem Part.same_trans {p : Part} {s t u : State} (h : p.same s t) (h' : p.same t u) : p.same s u := by
  cases p <;> simp_all [Part.same]

theorem keepsAllBut_refl (changed : List Part) (s : State) : keepsAllBut changed s s := fun p _ => p.same_refl s

/-- Frames compose: two updates change at most what either changes. -/
theorem keepsAllBut_trans {c c' : List Part} {s t u : State} (h : keepsAllBut c s t) (h' : keepsAllBut c' t u) :
    keepsAllBut (c ++ c') s u := by
  intro p hp
  simp only [List.mem_append, not_or] at hp
  exact Part.same_trans (h p hp.1) (h' p hp.2)

/-- A frame may be weakened to more parts. -/
theorem keepsAllBut_mono {c c' : List Part} {s t : State} (h : keepsAllBut c s t) (hc : ∀ p ∈ c, p ∈ c') :
    keepsAllBut c' s t := fun p hp => h p (fun hp' => hp (hc p hp'))

variable (s : State)

theorem setReg_frame (x : RegIdx) (b : Byte) : keepsAllBut [.v] s (s.setReg x b) :=
  keepsAllBut_of fun p => by cases p <;> simp [Part.same]

theorem jumpTo_frame (a : Word) : keepsAllBut [.pc] s (s.jumpTo a) :=
  keepsAllBut_of fun p => by cases p <;> simp [Part.same]

theorem advance_frame : keepsAllBut [.pc] s s.advance := jumpTo_frame s _

theorem rewind_frame : keepsAllBut [.pc] s s.rewind := jumpTo_frame s _

theorem skipIf_frame (c : Bool) : keepsAllBut [.pc] s (skipIf c s) :=
  keepsAllBut_of fun p => by cases p <;> simp [Part.same]

theorem setI_frame (a : Word) : keepsAllBut [.i] s (s.setI a) :=
  keepsAllBut_of fun p => by cases p <;> simp [Part.same]

theorem setDt_frame (b : Byte) : keepsAllBut [.dt] s (s.setDt b) :=
  keepsAllBut_of fun p => by cases p <;> simp [Part.same]

theorem setSt_frame (b : Byte) : keepsAllBut [.st] s (s.setSt b) :=
  keepsAllBut_of fun p => by cases p <;> simp [Part.same]

theorem setMem_frame (m : Memory) : keepsAllBut [.mem] s (s.setMem m) :=
  keepsAllBut_of fun p => by cases p <;> simp [Part.same]

theorem store_frame (a : Nat) (bytes : List Byte) : keepsAllBut [.mem] s (s.store a bytes) := setMem_frame s _

theorem setFb_frame (f : Framebuffer) : keepsAllBut [.fb] s (s.setFb f) :=
  keepsAllBut_of fun p => by cases p <;> simp [Part.same]

theorem setKey_frame (k : Fin 16) (b : Bool) : keepsAllBut [.key] s (s.setKey k b) :=
  keepsAllBut_of fun p => by cases p <;> simp [Part.same]

theorem countDraw_frame : keepsAllBut [.draws] s s.countDraw :=
  keepsAllBut_of fun p => by cases p <;> simp [Part.same]

theorem push_frame (a : Word) : keepsAllBut [.sp, .stack] s (s.push a) :=
  keepsAllBut_of fun p => by cases p <;> simp [Part.same]

theorem pop_frame : keepsAllBut [.sp] s s.pop :=
  keepsAllBut_of fun p => by cases p <;> simp [Part.same]

theorem loadRegs_frame (n : Nat) : keepsAllBut [.v] s (loadRegs s n) :=
  keepsAllBut_of fun p => by cases p <;> simp [Part.same]

/-- The bit that an error's mask sets is the error's own (R240). -/
theorem flagBit_getLsbD (k : ErrorKind) (j : Fin 4) : k.flagBit.getLsbD j.val = decide (j.val = k.bit) := by
  cases k <;> revert j <;> decide

/-- The one operation that takes an error reports it and does nothing else (R244). -/
theorem report_reports (k : ErrorKind) : reports k [] s (s.report k) := by
  refine ⟨fun j => ?_, keepsAllBut_of fun p => by cases p <;> simp [Part.same]⟩
  rw [State.report_errflags, BitVec.getLsbD_or, flagBit_getLsbD]

end Sys2Proof.Machine
end

