-- ==== Sys2Proof/Laws/Operands.lean ====
section
/-! SUPPORT. What the operand forms and the flag operation of the machine compute. -/

namespace Sys2Proof.Machine

/-- The address an instruction names is its field, zero-extended (R73). -/
@[simp] theorem target_toNat (nnn : Addr) : (target nnn).toNat = nnn.toNat := by
  have := nnn.isLt
  unfold target; rw [BitVec.toNat_setWidth]; omega

/-- The sum of `JP V0` is never reduced (R117). -/
theorem offsetTarget_toNat (s : State) (nnn : Addr) : (offsetTarget s nnn).toNat = nnn.toNat + (s.reg 0).toNat := by
  have := nnn.isLt
  have := (s.reg 0).isLt
  unfold offsetTarget; rw [BitVec.toNat_add, target_toNat, BitVec.toNat_setWidth]; omega

/-- The store block has one byte for each of `V[0]`..`V[x]` (R164). -/
@[simp] theorem regBlock_length (s : State) (x : RegIdx) : (regBlock s x).length = x.val + 1 := by simp [regBlock]

/-- Byte `k` of the store block is `V[k]` (R164). -/
theorem regBlock_getElem (s : State) (x : RegIdx) (k : Nat) (h : k < (regBlock s x).length) :
    (regBlock s x)[k] = s.reg ⟨k, by rw [regBlock_length] at h; omega⟩ := by
  simp [regBlock, State.reg]

/-- A byte of 0..15 numbers its own key (R200). -/
theorem keyAt_eq (s : State) (b : Byte) (k : Fin 16) (h : b.toNat = k.val) : s.keyAt b = s.key[k] := by
  unfold State.keyAt keySlot; simp [h]

/-- The ascending scan finds the lowest pressed key (R203). -/
theorem lowestKey_eq_some (s : State) (k : Fin 16) (hk : s.key[k] = true)
    (hj : ∀ j : Fin 16, j < k → s.key[j] = false) : s.lowestKey = some k := by
  unfold State.lowestKey
  rw [List.find?_eq_some_iff_getElem]
  exact ⟨hk, k.val, by simp, by simp, fun j h => by simpa using hj ⟨j, by omega⟩ h⟩

/-- The scan finds nothing exactly when no key is pressed (R203). -/
theorem lowestKey_eq_none (s : State) : s.lowestKey = none ↔ ∀ k : Fin 16, s.key[k] = false := by
  unfold State.lowestKey; simp

/-- The sprite bytes are the `n` bytes at `I` (R182). -/
theorem spriteBytes_eq (s : State) (n : Nat) :
    spriteBytes s n = (List.range n).map fun k => s.byte (s.i.toNat + k) := by
  apply List.ext_getElem
  · simp [spriteBytes]
  · intro k h1 h2
    simp [spriteBytes, State.bytes_getElem, State.ea]

/-- The flag first, the result second: what registers hold after a flag-defining instruction (R130 (d)). -/
theorem setFlagThenReg_reg (s : State) (x r : RegIdx) (flag : Bool) (b : Byte) :
    (s.setFlagThenReg x flag b).reg r = if x = r then b else if 15 = r then flagByte flag else s.reg r := by
  simp [State.setFlagThenReg, State.setFlag]

/-- A flag byte is 0 or 1 (R130 (e)). -/
@[simp] theorem flagByte_toNat (b : Bool) : (flagByte b).toNat = if b then 1 else 0 := by cases b <;> rfl

end Sys2Proof.Machine
end

