-- ==== Sys2Proof/Laws/PerInstr.lean ====
section
/-! SUPPORT. The per-instruction family `EncodesInRow`: the word of every instruction selects the instruction's own
row of the opcode table (R76), whatever its operands. -/

namespace Sys2Proof.Laws.EncodesInRow

/-- The encoded word selects the row of its instruction, and the row is in the table. -/
def Statement (i : Instr) : Prop := (rowOf i).selects (encode i) = true ∧ rowOf i ∈ opcodeTable

/-- Families with no secondary key: the top nibble selects the row. -/
theorem selects_op {w : Word} {op : BitVec 4} {value : Word} (hop : (fieldsOf w).op = op)
    (hv : value = (op ++ 0#12 : BitVec (4 + 12))) : (OpcodeRow.mk value 0xF000).selects w = true := by
  simp only [OpcodeRow.selects, beq_iff_eq]
  exact (mask_op w).trans (hop ▸ hv.symm)

/-- Family 0x8: the top and the low nibble select the row. -/
theorem selects_op_n {w : Word} {op n : BitVec 4} {value : Word} (hop : (fieldsOf w).op = op)
    (hn : (fieldsOf w).n = n) (hv : value = (op ++ (0#8 ++ n) : BitVec (4 + (8 + 4)))) :
    (OpcodeRow.mk value 0xF00F).selects w = true := by
  simp only [OpcodeRow.selects, beq_iff_eq]
  exact (mask_op_n w).trans (hop ▸ hn ▸ hv.symm)

/-- Families 0x0, 0xE, 0xF: the top nibble and the low byte select the row. -/
theorem selects_op_kk {w : Word} {op : BitVec 4} {kk : Byte} {value : Word} (hop : (fieldsOf w).op = op)
    (hk : (fieldsOf w).kk = kk) (hv : value = (op ++ (0#4 ++ kk) : BitVec (4 + (4 + 8)))) :
    (OpcodeRow.mk value 0xF0FF).selects w = true := by
  simp only [OpcodeRow.selects, beq_iff_eq]
  exact (mask_op_kk w).trans (hop ▸ hk ▸ hv.symm)

theorem cls : Statement .cls := ⟨by decide, by decide⟩
theorem ret : Statement .ret := ⟨by decide, by decide⟩
theorem jp (nnn : Addr) : Statement (.jp nnn) :=
  ⟨selects_op (fieldsOf_encNNN_op _ _) (by decide), by simp [rowOf, opcodeTable, rowSamples1, rowSamples2]⟩
theorem call (nnn : Addr) : Statement (.call nnn) :=
  ⟨selects_op (fieldsOf_encNNN_op _ _) (by decide), by simp [rowOf, opcodeTable, rowSamples1, rowSamples2]⟩
theorem seImm (x : RegIdx) (kk : Byte) : Statement (.seImm x kk) :=
  ⟨selects_op (fieldsOf_encXKK_op _ _ _) (by decide), by simp [rowOf, opcodeTable, rowSamples1, rowSamples2]⟩
theorem sneImm (x : RegIdx) (kk : Byte) : Statement (.sneImm x kk) :=
  ⟨selects_op (fieldsOf_encXKK_op _ _ _) (by decide), by simp [rowOf, opcodeTable, rowSamples1, rowSamples2]⟩
theorem seReg (x y : RegIdx) : Statement (.seReg x y) :=
  ⟨selects_op (fieldsOf_encXYN_op _ _ _ _) (by decide), by simp [rowOf, opcodeTable, rowSamples1, rowSamples2]⟩
theorem ldImm (x : RegIdx) (kk : Byte) : Statement (.ldImm x kk) :=
  ⟨selects_op (fieldsOf_encXKK_op _ _ _) (by decide), by simp [rowOf, opcodeTable, rowSamples1, rowSamples2]⟩
theorem addImm (x : RegIdx) (kk : Byte) : Statement (.addImm x kk) :=
  ⟨selects_op (fieldsOf_encXKK_op _ _ _) (by decide), by simp [rowOf, opcodeTable, rowSamples1, rowSamples2]⟩
theorem ldReg (x y : RegIdx) : Statement (.ldReg x y) :=
  ⟨selects_op_n (fieldsOf_encXYN_op _ _ _ _) (fieldsOf_encXYN_n _ _ _ _) (by decide),
    by simp [rowOf, opcodeTable, rowSamples1, rowSamples2]⟩
theorem orReg (x y : RegIdx) : Statement (.orReg x y) :=
  ⟨selects_op_n (fieldsOf_encXYN_op _ _ _ _) (fieldsOf_encXYN_n _ _ _ _) (by decide),
    by simp [rowOf, opcodeTable, rowSamples1, rowSamples2]⟩
theorem andReg (x y : RegIdx) : Statement (.andReg x y) :=
  ⟨selects_op_n (fieldsOf_encXYN_op _ _ _ _) (fieldsOf_encXYN_n _ _ _ _) (by decide),
    by simp [rowOf, opcodeTable, rowSamples1, rowSamples2]⟩
theorem xorReg (x y : RegIdx) : Statement (.xorReg x y) :=
  ⟨selects_op_n (fieldsOf_encXYN_op _ _ _ _) (fieldsOf_encXYN_n _ _ _ _) (by decide),
    by simp [rowOf, opcodeTable, rowSamples1, rowSamples2]⟩
theorem addReg (x y : RegIdx) : Statement (.addReg x y) :=
  ⟨selects_op_n (fieldsOf_encXYN_op _ _ _ _) (fieldsOf_encXYN_n _ _ _ _) (by decide),
    by simp [rowOf, opcodeTable, rowSamples1, rowSamples2]⟩
theorem sub (x y : RegIdx) : Statement (.sub x y) :=
  ⟨selects_op_n (fieldsOf_encXYN_op _ _ _ _) (fieldsOf_encXYN_n _ _ _ _) (by decide),
    by simp [rowOf, opcodeTable, rowSamples1, rowSamples2]⟩
theorem shr (x y : RegIdx) : Statement (.shr x y) :=
  ⟨selects_op_n (fieldsOf_encXYN_op _ _ _ _) (fieldsOf_encXYN_n _ _ _ _) (by decide),
    by simp [rowOf, opcodeTable, rowSamples1, rowSamples2]⟩
theorem subn (x y : RegIdx) : Statement (.subn x y) :=
  ⟨selects_op_n (fieldsOf_encXYN_op _ _ _ _) (fieldsOf_encXYN_n _ _ _ _) (by decide),
    by simp [rowOf, opcodeTable, rowSamples1, rowSamples2]⟩
theorem shl (x y : RegIdx) : Statement (.shl x y) :=
  ⟨selects_op_n (fieldsOf_encXYN_op _ _ _ _) (fieldsOf_encXYN_n _ _ _ _) (by decide),
    by simp [rowOf, opcodeTable, rowSamples1, rowSamples2]⟩
theorem sneReg (x y : RegIdx) : Statement (.sneReg x y) :=
  ⟨selects_op (fieldsOf_encXYN_op _ _ _ _) (by decide), by simp [rowOf, opcodeTable, rowSamples1, rowSamples2]⟩
theorem ldI (nnn : Addr) : Statement (.ldI nnn) :=
  ⟨selects_op (fieldsOf_encNNN_op _ _) (by decide), by simp [rowOf, opcodeTable, rowSamples1, rowSamples2]⟩
theorem jpV0 (nnn : Addr) : Statement (.jpV0 nnn) :=
  ⟨selects_op (fieldsOf_encNNN_op _ _) (by decide), by simp [rowOf, opcodeTable, rowSamples1, rowSamples2]⟩
theorem rnd (x : RegIdx) (kk : Byte) : Statement (.rnd x kk) :=
  ⟨selects_op (fieldsOf_encXKK_op _ _ _) (by decide), by simp [rowOf, opcodeTable, rowSamples1, rowSamples2]⟩
theorem drw (x y : RegIdx) (n : BitVec 4) : Statement (.drw x y n) :=
  ⟨selects_op (fieldsOf_encXYN_op _ _ _ _) (by decide), by simp [rowOf, opcodeTable, rowSamples1, rowSamples2]⟩
theorem skp (x : RegIdx) : Statement (.skp x) :=
  ⟨selects_op_kk (fieldsOf_encXKK_op _ _ _) (fieldsOf_encXKK_kk _ _ _) (by decide),
    by simp [rowOf, opcodeTable, rowSamples1, rowSamples2]⟩
theorem sknp (x : RegIdx) : Statement (.sknp x) :=
  ⟨selects_op_kk (fieldsOf_encXKK_op _ _ _) (fieldsOf_encXKK_kk _ _ _) (by decide),
    by simp [rowOf, opcodeTable, rowSamples1, rowSamples2]⟩
theorem ldVxDt (x : RegIdx) : Statement (.ldVxDt x) :=
  ⟨selects_op_kk (fieldsOf_encXKK_op _ _ _) (fieldsOf_encXKK_kk _ _ _) (by decide),
    by simp [rowOf, opcodeTable, rowSamples1, rowSamples2]⟩
theorem ldVxK (x : RegIdx) : Statement (.ldVxK x) :=
  ⟨selects_op_kk (fieldsOf_encXKK_op _ _ _) (fieldsOf_encXKK_kk _ _ _) (by decide),
    by simp [rowOf, opcodeTable, rowSamples1, rowSamples2]⟩
theorem ldDtVx (x : RegIdx) : Statement (.ldDtVx x) :=
  ⟨selects_op_kk (fieldsOf_encXKK_op _ _ _) (fieldsOf_encXKK_kk _ _ _) (by decide),
    by simp [rowOf, opcodeTable, rowSamples1, rowSamples2]⟩
theorem ldStVx (x : RegIdx) : Statement (.ldStVx x) :=
  ⟨selects_op_kk (fieldsOf_encXKK_op _ _ _) (fieldsOf_encXKK_kk _ _ _) (by decide),
    by simp [rowOf, opcodeTable, rowSamples1, rowSamples2]⟩
theorem addI (x : RegIdx) : Statement (.addI x) :=
  ⟨selects_op_kk (fieldsOf_encXKK_op _ _ _) (fieldsOf_encXKK_kk _ _ _) (by decide),
    by simp [rowOf, opcodeTable, rowSamples1, rowSamples2]⟩
theorem ldF (x : RegIdx) : Statement (.ldF x) :=
  ⟨selects_op_kk (fieldsOf_encXKK_op _ _ _) (fieldsOf_encXKK_kk _ _ _) (by decide),
    by simp [rowOf, opcodeTable, rowSamples1, rowSamples2]⟩
theorem ldB (x : RegIdx) : Statement (.ldB x) :=
  ⟨selects_op_kk (fieldsOf_encXKK_op _ _ _) (fieldsOf_encXKK_kk _ _ _) (by decide),
    by simp [rowOf, opcodeTable, rowSamples1, rowSamples2]⟩
theorem ldMemVx (x : RegIdx) : Statement (.ldMemVx x) :=
  ⟨selects_op_kk (fieldsOf_encXKK_op _ _ _) (fieldsOf_encXKK_kk _ _ _) (by decide),
    by simp [rowOf, opcodeTable, rowSamples1, rowSamples2]⟩
theorem ldVxMem (x : RegIdx) : Statement (.ldVxMem x) :=
  ⟨selects_op_kk (fieldsOf_encXKK_op _ _ _) (fieldsOf_encXKK_kk _ _ _) (by decide),
    by simp [rowOf, opcodeTable, rowSamples1, rowSamples2]⟩

end Sys2Proof.Laws.EncodesInRow
end

