-- ==== Sys2Proof/Machine/Assembly.lean ====
section
/-! DEFINITION. The spec's notation for programs (R80, R81): the spelling of an instruction, and the bytes of a program
written with labels and directives. It is notation and gives the machine no behaviour (D29). -/

namespace Sys2Proof

/-- A hexadecimal digit, as registers are named: `V0`..`V9`, `VA`..`VF` (R80). -/
def hexDigit (d : Nat) : String :=
  match d % 16 with
  | 10 => "A" | 11 => "B" | 12 => "C" | 13 => "D" | 14 => "E" | 15 => "F"
  | n => toString n

/-- The name of a register (R80). -/
def regName (x : RegIdx) : String := "V" ++ hexDigit x.val

/-- A number operand, in hexadecimal (R9): two digits for a byte, three for an address. -/
def hexByte (b : Byte) : String := "0x" ++ hexDigit (b.toNat / 16) ++ hexDigit b.toNat

/-- An address operand (R80). -/
def hexAddr (a : Addr) : String :=
  "0x" ++ hexDigit (a.toNat / 256) ++ hexDigit (a.toNat / 16) ++ hexDigit a.toNat

/-- `Vx, Vy`. -/
def twoRegs (x y : RegIdx) : String := regName x ++ ", " ++ regName y

/-- `Vx, kk`. -/
def regAndByte (x : RegIdx) (kk : Byte) : String := regName x ++ ", " ++ hexByte kk

/-- The spelling of an instruction: `MNEMONIC operand, operand` as the mnemonic column of R76 has it (R80). -/
def spelling : Instr → String
  | .cls => "CLS"
  | .ret => "RET"
  | .jp nnn => "JP " ++ hexAddr nnn
  | .call nnn => "CALL " ++ hexAddr nnn
  | .seImm x kk => "SE " ++ regAndByte x kk
  | .sneImm x kk => "SNE " ++ regAndByte x kk
  | .seReg x y => "SE " ++ twoRegs x y
  | .ldImm x kk => "LD " ++ regAndByte x kk
  | .addImm x kk => "ADD " ++ regAndByte x kk
  | .ldReg x y => "LD " ++ twoRegs x y
  | .orReg x y => "OR " ++ twoRegs x y
  | .andReg x y => "AND " ++ twoRegs x y
  | .xorReg x y => "XOR " ++ twoRegs x y
  | .addReg x y => "ADD " ++ twoRegs x y
  | .sub x y => "SUB " ++ twoRegs x y
  | .shr x y => "SHR " ++ twoRegs x y
  | .subn x y => "SUBN " ++ twoRegs x y
  | .shl x y => "SHL " ++ twoRegs x y
  | .sneReg x y => "SNE " ++ twoRegs x y
  | .ldI nnn => "LD I, " ++ hexAddr nnn
  | .jpV0 nnn => "JP V0, " ++ hexAddr nnn
  | .rnd x kk => "RND " ++ regAndByte x kk
  | .drw x y n => "DRW " ++ twoRegs x y ++ ", " ++ toString n.toNat
  | .skp x => "SKP " ++ regName x
  | .sknp x => "SKNP " ++ regName x
  | .ldVxDt x => "LD " ++ regName x ++ ", DT"
  | .ldVxK x => "LD " ++ regName x ++ ", K"
  | .ldDtVx x => "LD DT, " ++ regName x
  | .ldStVx x => "LD ST, " ++ regName x
  | .addI x => "ADD I, " ++ regName x
  | .ldF x => "LD F, " ++ regName x
  | .ldB x => "LD B, " ++ regName x
  | .ldMemVx x => "LD [I], " ++ regName x
  | .ldVxMem x => "LD " ++ regName x ++ ", [I]"

/-! ### Programs with labels and directives -/

/-- The instructions whose address operand may be written as a label (R80). -/
inductive LabelForm where
  | jp | call | ldI | jpV0
  deriving DecidableEq, Repr

/-- The instruction of a label form at an address. -/
def LabelForm.instr (f : LabelForm) (nnn : Addr) : Instr :=
  match f with
  | .jp => .jp nnn
  | .call => .call nnn
  | .ldI => .ldI nnn
  | .jpV0 => .jpV0 nnn

/-- A line of a program (R80, R81); labels are numbered. -/
inductive AsmLine where
  /-- an instruction with its operands as numbers -/
  | instr (i : Instr)
  /-- an instruction whose address operand is the label `l` -/
  | atLabel (f : LabelForm) (l : Nat)
  /-- `DB b, ...` -/
  | db (bytes : List Byte)
  /-- `DW w`, high byte first -/
  | dw (w : Word)
  /-- `label:` names the address of the next byte -/
  | label (l : Nat)
  /-- `ORG a` sets the address of the next byte -/
  | org (a : Nat)
  deriving DecidableEq, Repr

/-- The address of the next byte after a line that starts at `a`. -/
def AsmLine.next (a : Nat) : AsmLine → Nat
  | .instr _ => a + 2
  | .atLabel _ _ => a + 2
  | .db bytes => a + bytes.length
  | .dw _ => a + 2
  | .label _ => a
  | .org b => b

/-- The addresses of the labels of a program whose first byte is at `a`. -/
def labelAddresses (a : Nat) : List AsmLine → List (Nat × Nat)
  | [] => []
  | .label l :: ls => (l, a) :: labelAddresses a ls
  | .instr i :: ls => labelAddresses ((AsmLine.instr i).next a) ls
  | .atLabel f l :: ls => labelAddresses ((AsmLine.atLabel f l).next a) ls
  | .db bytes :: ls => labelAddresses ((AsmLine.db bytes).next a) ls
  | .dw w :: ls => labelAddresses ((AsmLine.dw w).next a) ls
  | .org b :: ls => labelAddresses b ls

/-- The bytes of a line; none for a label that is not defined or whose address does not fit `nnn` (0..0xFFF). -/
def AsmLine.bytes (labels : List (Nat × Nat)) : AsmLine → Option (List Byte)
  | .instr i => some (encodeBytes i)
  | .atLabel f l =>
    match labels.lookup l with
    | some a => if a ≤ 0xFFF then some (encodeBytes (f.instr (BitVec.ofNat 12 a))) else none
    | none => none
  | .db bytes => some bytes
  | .dw w => some [w.extractLsb' 8 8, w.extractLsb' 0 8]
  | .label _ => some []
  | .org _ => some []

/-- Bytes at ascending addresses. -/
def cellsFrom (a : Nat) : List Byte → List Host.Cell
  | [] => []
  | b :: bs => (a, b) :: cellsFrom (a + 1) bs

/-- The bytes of the lines from address `a`, each with its address. -/
def assembleFrom (labels : List (Nat × Nat)) (a : Nat) : List AsmLine → Option (List Host.Cell)
  | [] => some []
  | l :: ls =>
    match l.bytes labels, assembleFrom labels (l.next a) ls with
    | some bytes, some rest => some (cellsFrom a bytes ++ rest)
    | _, _ => none

/-- The bytes of a program that starts at 0x200 (R5, R81). -/
def assemble (program : List AsmLine) : Option (List Host.Cell) :=
  assembleFrom (labelAddresses 0x200 program) 0x200 program

end Sys2Proof
end

