-- ==== Sys2Proof/Tests/Slice0.lean ====
section
/-! SUPPORT. Tests and witnesses. The expected results are hand calculations from the spec's rules and the vectors of
95_test_vectors.md (their ids stand in the docstrings); the words are written out bit by bit from the encodings of
R76. -/

namespace Sys2Proof.Tests

open Sys2Proof Sys2Proof.Machine

/-! ### Helpers -/

/-- The reset state with the word `w` where the next step fetches, `PC` = 0x200. -/
def ready (w : Nat) : State := State.reset.withFetchWord 16 w

/-- The reset state with the word `w` at the address `a` and `PC` = `a`. -/
def readyAt (a : Word) (w : Nat) : State := (State.reset.jumpTo a).withFetchWord 16 w

/-- What an answer's next state shows; nothing if there is none. -/
def shows {α : Type} (f : State → α) : Answer → Option α
  | .next t => some (f t)
  | .fault _ => none
  | .refused _ => none

/-- The state with one byte of memory set. -/
def State.poke (s : State) (a : Nat) (b : Byte) : State := s.store a [b]

/-- The state with one pixel lit, of a state in which it is not. -/
def State.light (s : State) (y x : Nat) : State := s.setFb (s.fb.flip y x)

/-- The state with a full stack: 0x10F in slot 15, 0x100 in the others. -/
def State.fullStack (s : State) : State :=
  { s with sp := 16, stack := (Vector.replicate 16 0x100).set 15 0x10F }

/-- The lit pixels of one row, as column numbers. -/
def State.litColumns (s : State) (y : Nat) : List Nat := (List.range 64).filter (fun x => s.fb.pixel y x)

/-! ### WellFormed refuses an ill-formed term, check by check -/

/-- `knownWord` refuses 0x0000 (E9) and takes 0x00E0. -/
theorem test_knownWord_refuses : knownWord 0x0000 = false ∧ knownWord 0x00E0 = true := by decide

/-- `canonicalWord` refuses 0x0FEE, `RET` with ignored bits set (E5), and an unknown word; it takes 0x00EE. -/
theorem test_canonicalWord_refuses :
    canonicalWord 0x0FEE = false ∧ canonicalWord 0x800F = false ∧ canonicalWord 0x00EE = true := by decide

/-- `loadableImage` refuses 3585 bytes and takes 3584 (R222). -/
theorem test_loadableImage_refuses :
    loadableImage (List.replicate 3585 0x01) = false ∧ loadableImage (List.replicate 3584 0x01) = true := by
  simp only [loadableImage, List.length_replicate]; decide

/-- `wellFormedProgram` refuses a program with a word that is not canonical (0x5A7C, E6), and one word too many. -/
theorem test_wellFormedProgram_refuses :
    wellFormedProgram [0x00E0, 0x5A7C] = false ∧ wellFormedProgram (List.replicate 1793 0x00E0) = false ∧
    wellFormedProgram [0x00E0, 0x5A70] = true := by
  refine ⟨by decide, ?_, by decide⟩
  simp only [wellFormedProgram, List.length_replicate, Bool.and_eq_false_iff]; exact .inr (by decide)

/-! ### Decoding: every constructor's word, two bytes in memory order -/

theorem test_decode_cls : decodeBytes [0b00000000#8, 0b11100000#8] = .ok (.cls, []) := by decide
theorem test_decode_cls_ignored_bits : decodeBytes [0b00001010#8, 0b11100000#8] = .ok (.cls, []) := by decide
theorem test_decode_ret : decodeBytes [0b00000000#8, 0b11101110#8] = .ok (.ret, []) := by decide
theorem test_decode_jp : decodeBytes [0b00010010#8, 0b00110100#8] = .ok (.jp 0x234, []) := by decide
theorem test_decode_call : decodeBytes [0b00100011#8, 0b00000001#8] = .ok (.call 0x301, []) := by decide
theorem test_decode_seImm : decodeBytes [0b00111010#8, 0b00000111#8] = .ok (.seImm 10 0x07, []) := by decide
theorem test_decode_sneImm : decodeBytes [0b01001010#8, 0b00000111#8] = .ok (.sneImm 10 0x07, []) := by decide
theorem test_decode_seReg : decodeBytes [0b01010001#8, 0b00100000#8] = .ok (.seReg 1 2, []) := by decide
theorem test_decode_seReg_ignored_bits : decodeBytes [0b01010001#8, 0b00101111#8] = .ok (.seReg 1 2, []) := by decide
theorem test_decode_ldImm : decodeBytes [0b01101010#8, 0b00101011#8] = .ok (.ldImm 10 0x2B, []) := by decide
theorem test_decode_addImm : decodeBytes [0b01110011#8, 0b00000010#8] = .ok (.addImm 3 0x02, []) := by decide
theorem test_decode_ldReg : decodeBytes [0b10000001#8, 0b00100000#8] = .ok (.ldReg 1 2, []) := by decide
theorem test_decode_orReg : decodeBytes [0b10000001#8, 0b00100001#8] = .ok (.orReg 1 2, []) := by decide
theorem test_decode_andReg : decodeBytes [0b10000001#8, 0b00100010#8] = .ok (.andReg 1 2, []) := by decide
theorem test_decode_xorReg : decodeBytes [0b10000001#8, 0b00100011#8] = .ok (.xorReg 1 2, []) := by decide
theorem test_decode_addReg : decodeBytes [0b10000001#8, 0b00100100#8] = .ok (.addReg 1 2, []) := by decide
theorem test_decode_sub : decodeBytes [0b10000001#8, 0b00100101#8] = .ok (.sub 1 2, []) := by decide
theorem test_decode_shr : decodeBytes [0b10000001#8, 0b00100110#8] = .ok (.shr 1 2, []) := by decide
theorem test_decode_subn : decodeBytes [0b10000001#8, 0b00100111#8] = .ok (.subn 1 2, []) := by decide
theorem test_decode_shl : decodeBytes [0b10000001#8, 0b00101110#8] = .ok (.shl 1 2, []) := by decide
theorem test_decode_sneReg : decodeBytes [0b10010001#8, 0b00100000#8] = .ok (.sneReg 1 2, []) := by decide
theorem test_decode_ldI : decodeBytes [0b10100010#8, 0b11110000#8] = .ok (.ldI 0x2F0, []) := by decide
theorem test_decode_jpV0 : decodeBytes [0b10110011#8, 0b00000101#8] = .ok (.jpV0 0x305, []) := by decide
theorem test_decode_rnd : decodeBytes [0b11000011#8, 0b00001111#8] = .ok (.rnd 3 0x0F, []) := by decide
theorem test_decode_drw : decodeBytes [0b11010111#8, 0b10100101#8] = .ok (.drw 7 10 5, []) := by decide
theorem test_decode_skp : decodeBytes [0b11100101#8, 0b10011110#8] = .ok (.skp 5, []) := by decide
theorem test_decode_sknp : decodeBytes [0b11100101#8, 0b10100001#8] = .ok (.sknp 5, []) := by decide
theorem test_decode_ldVxDt : decodeBytes [0b11110011#8, 0b00000111#8] = .ok (.ldVxDt 3, []) := by decide
theorem test_decode_ldVxK : decodeBytes [0b11110100#8, 0b00001010#8] = .ok (.ldVxK 4, []) := by decide
theorem test_decode_ldDtVx : decodeBytes [0b11110011#8, 0b00010101#8] = .ok (.ldDtVx 3, []) := by decide
theorem test_decode_ldStVx : decodeBytes [0b11110011#8, 0b00011000#8] = .ok (.ldStVx 3, []) := by decide
theorem test_decode_addI : decodeBytes [0b11110100#8, 0b00011110#8] = .ok (.addI 4, []) := by decide
theorem test_decode_ldF : decodeBytes [0b11110010#8, 0b00101001#8] = .ok (.ldF 2, []) := by decide
theorem test_decode_ldB : decodeBytes [0b11110011#8, 0b00110011#8] = .ok (.ldB 3, []) := by decide
theorem test_decode_ldMemVx : decodeBytes [0b11110010#8, 0b01010101#8] = .ok (.ldMemVx 2, []) := by decide
theorem test_decode_ldVxMem : decodeBytes [0b11110010#8, 0b01100101#8] = .ok (.ldVxMem 2, []) := by decide

/-- One byte is no instruction, and 0x5A with 0x0F follows as rest. -/
theorem test_decode_truncated : decodeBytes [0xD7] = .error .truncated ∧
    decodeBytes [0x00, 0xE0, 0x5A, 0x0F] = .ok (.cls, [0x5A, 0x0F]) := by decide

/-- Unknown words: E8, E9, E10, X2, K7, K15. -/
theorem test_decode_unknown : [0xFFFF, 0x0000, 0x800F, 0x0123, 0xE59F, 0xF300].map (decodeTableWord 16) =
    [none, none, none, none, none, none] := by decide

/-! ### Steps, one for each vector -/

/-- X1, R96 -/
theorem test_unknown_word_reported :
    shows (fun t => (t.pc, t.errflags))
      (step ((ready 0x0000))) =
    some (0x202, 0b0100) := by decide
/-- F25, R91, R92 -/
theorem test_fetch_outside_wraps :
    shows (fun t => (t.pc, t.errflags))
      (step (State.reset.jumpTo 0xFFFF)) =
    some (0x0001, 0b0001) := by decide
/-- F23, R91: the last two bytes are fetched and the skip is taken -/
theorem test_fetch_last_word :
    shows (fun t => (t.pc, t.errflags))
      (step (readyAt 0xFFE 0x3000)) =
    some (0x1002, 0) := by decide
/-- F27, R53 -/
theorem test_odd_address :
    shows (fun t => (t.reg 10, t.pc))
      (step (readyAt 0x201 0x6A01)) =
    some (0x01, 0x203) := by decide
/-- F1, R110 -/
theorem test_ret :
    shows (fun t => (t.pc, t.sp.val, t.stack[0]))
      (step { readyAt 0x300 0x00EE with
        sp := 1, stack := (Vector.replicate 16 0).set 0 0x204 }) =
    some (0x204, 0, 0x204) := by decide
/-- F3, R110 -/
theorem test_ret_full_stack :
    shows (fun t => (t.pc, t.sp.val))
      (step (State.fullStack (readyAt 0x300 0x00EE))) =
    some (0x10F, 15) := by decide
/-- F5, R111 -/
theorem test_jp :
    shows (fun t => (t.pc, t.errflags))
      (step ((ready 0x1234))) =
    some (0x234, 0) := by decide
/-- F7, R112 (C1) -/
theorem test_call :
    shows (fun t => (t.pc, t.sp.val, t.stack[0]))
      (step (readyAt 0x202 0x2300)) =
    some (0x300, 1, 0x204) := by decide
/-- F9, R112 -/
theorem test_call_full_stack :
    shows (fun t => (t.pc, t.sp.val, t.stack[15], t.errflags))
      (step (State.fullStack (readyAt 0x202 0x2300))) =
    some (0x204, 16, 0x10F, 0b1000) := by decide
/-- F10, R113 -/
theorem test_seImm :
    shows (fun t => t.pc)
      (step ((ready 0x3A07).setReg 10 0x07)) =
    some 0x204 := by decide
/-- F13, R114 -/
theorem test_sneImm :
    shows (fun t => t.pc)
      (step ((ready 0x4A07).setReg 10 0x08)) =
    some 0x204 := by decide
/-- F16, R115 -/
theorem test_seReg :
    shows (fun t => t.pc)
      (step ((ready 0x512F).setReg 1 0x33 |>.setReg 2 0x33)) =
    some 0x204 := by decide
/-- F20, R116 -/
theorem test_sneReg :
    shows (fun t => t.pc)
      (step ((ready 0x9127).setReg 1 0x01 |>.setReg 2 0x02)) =
    some 0x204 := by decide
/-- F22, R117 -/
theorem test_jpV0 :
    shows (fun t => t.pc)
      (step ((ready 0xBFFF).setReg 0 0xFF)) =
    some 0x10FE := by decide
/-- A1, R131 -/
theorem test_ldImm :
    shows (fun t => t.reg 10)
      (step ((ready 0x6A2B))) =
    some 0x2B := by decide
/-- A2, R132 -/
theorem test_addImm_no_flag :
    shows (fun t => (t.reg 3, t.reg 15))
      (step ((ready 0x7302).setReg 3 0xFF |>.setReg 15 0x55)) =
    some (0x01, 0x55) := by decide
/-- A4, R133 -/
theorem test_ldReg :
    shows (fun t => (t.reg 1, t.reg 2))
      (step ((ready 0x8120).setReg 2 0x7E)) =
    some (0x7E, 0x7E) := by decide
/-- A5, R134 -/
theorem test_or :
    shows (fun t => (t.reg 1, t.reg 15))
      (step ((ready 0x8121).setReg 1 0xF0 |>.setReg 2 0x0F |>.setReg 15 0x55)) =
    some (0xFF, 0x55) := by decide
/-- A6, R135 -/
theorem test_and :
    shows (fun t => t.reg 1)
      (step ((ready 0x8122).setReg 1 0xF0 |>.setReg 2 0x3C)) =
    some 0x30 := by decide
/-- A7, R136 -/
theorem test_xor :
    shows (fun t => t.reg 1)
      (step ((ready 0x8123).setReg 1 0xF0 |>.setReg 2 0x3C)) =
    some 0xCC := by decide
/-- A14, R130: for x = 15 the result remains -/
theorem test_addReg_flag_then_result :
    shows (fun t => t.reg 15)
      (step ((ready 0x8F14).setReg 15 0xF0 |>.setReg 1 0x20)) =
    some 0x10 := by decide
/-- A9, R137 -/
theorem test_addReg_no_carry_at_255 :
    shows (fun t => (t.reg 1, t.reg 15))
      (step ((ready 0x8124).setReg 1 0xFE |>.setReg 2 0x01 |>.setReg 15 0x01)) =
    some (0xFF, 0x00) := by decide
/-- A12, R138 -/
theorem test_sub :
    shows (fun t => (t.reg 1, t.reg 15))
      (step ((ready 0x8125).setReg 1 0x05 |>.setReg 2 0x0A |>.setReg 15 0x01)) =
    some (0xFB, 0x00) := by decide
/-- A13, R138: strict comparison -/
theorem test_sub_equal :
    shows (fun t => (t.reg 1, t.reg 15))
      (step ((ready 0x8125).setReg 1 0x07 |>.setReg 2 0x07 |>.setReg 15 0x01)) =
    some (0x00, 0x00) := by decide
/-- A17, R139: Vy is shifted -/
theorem test_shr :
    shows (fun t => (t.reg 1, t.reg 2, t.reg 15))
      (step ((ready 0x8126).setReg 1 0xAA |>.setReg 2 0x05)) =
    some (0x02, 0x05, 0x01) := by decide
/-- A21, R140 -/
theorem test_subn :
    shows (fun t => (t.reg 1, t.reg 15))
      (step ((ready 0x8127).setReg 1 0x05 |>.setReg 2 0x0A)) =
    some (0x05, 0x01) := by decide
/-- A24, R141 -/
theorem test_shl :
    shows (fun t => (t.reg 1, t.reg 2, t.reg 15))
      (step ((ready 0x812E).setReg 2 0x81)) =
    some (0x02, 0x81, 0x01) := by decide
/-- A29b, R142: whatever byte `r` the source delivers, `V3` is `r AND F0`, the flag is unchanged, and one byte is
drawn. -/
theorem test_rnd : ∃ t, exec (.rnd 3 0xF0) State.reset = .next t ∧ t.reg 3 = Config.randomByte 0 &&& 0xF0 ∧
    t.reg 15 = 0 ∧ t.draws = 1 := ⟨_, rfl, by simp [State.reset, State.resetWith], by simp [State.reg, State.reset, State.resetWith], rfl⟩
/-- A28, R142: a zero mask gives 0 for every draw. -/
theorem test_rnd_zero_mask : ∃ t, exec (.rnd 3 0x00) (State.reset.setReg 3 0x55) = .next t ∧ t.reg 3 = 0 :=
  ⟨_, rfl, by simp⟩
/-- M1, R160 -/
theorem test_ldI :
    shows (fun t => t.i)
      (step ((ready 0xA2F0))) =
    some 0x2F0 := by decide
/-- M3, R161 -/
theorem test_addI_not_masked :
    shows (fun t => (t.i, t.reg 15))
      (step ((ready 0xF41E).setReg 4 0x01 |>.setI 0xFFF)) =
    some (0x1000, 0x00) := by decide
/-- M4, R161 -/
theorem test_addI_wraps :
    shows (fun t => t.i)
      (step ((ready 0xF41E).setReg 4 0x01 |>.setI 0xFFFF)) =
    some 0x0000 := by decide
/-- M5, R162 (C5: I is overwritten) -/
theorem test_ldF :
    shows (fun t => t.i)
      (step ((ready 0xF229).setReg 2 0x0A |>.setI 0x123)) =
    some 0x082 := by decide
/-- M7, R162 -/
theorem test_ldF_bad_digit :
    shows (fun t => (t.i, t.pc, t.errflags))
      (step ((ready 0xF229).setReg 2 0x10 |>.setI 0x123)) =
    some (0x123, 0x202, 0b0010) := by decide
/-- M11, R163: the last legal base -/
theorem test_ldB :
    shows (fun t => (t.bytes 0xFFD 3, t.i))
      (step ((ready 0xF333).setReg 3 0x64 |>.setI 0xFFD)) =
    some ([0x01, 0x00, 0x00], 0xFFD) := by decide
/-- M12, R163 -/
theorem test_ldB_outside :
    shows (fun t => (t.bytes 0xFFE 2, t.errflags))
      (step ((ready 0xF333).setReg 3 0x64 |>.setI 0xFFE)) =
    some ([0x00, 0x00], 0b0001) := by decide
/-- M13, R164 -/
theorem test_ldMemVx :
    shows (fun t => (t.bytes 0x400 4, t.i))
      (step ((ready 0xF255).setReg 0 0x11 |>.setReg 1 0x22 |>.setReg 2 0x33 |>.setReg 3 0x44 |>.setI 0x400)) =
    some ([0x11, 0x22, 0x33, 0x00], 0x400) := by decide
/-- M15, R164 -/
theorem test_ldMemVx_no_partial_write :
    shows (fun t => (t.bytes 0xFFF 1, t.pc, t.errflags))
      (step ((ready 0xF155).setReg 0 0x11 |>.setReg 1 0x22 |>.setI 0xFFF)) =
    some ([0x00], 0x202, 0b0001) := by decide
/-- M21, R165, R37: the font is loaded like any bytes, register 15 like any register -/
theorem test_ldVxMem_font :
    shows (fun t => (t.reg 0, t.reg 5, t.reg 6, t.reg 15))
      (step ((ready 0xFF65).setI 0x050)) =
    some (0xF0, 0x20, 0x60, 0xF0) := by decide
/-- M18, R165 -/
theorem test_ldVxMem_no_partial_load :
    shows (fun t => (t.reg 0, t.errflags))
      (step (State.poke ((ready 0xF165).setReg 0 0x01 |>.setI 0xFFF) 0xFFF 0x77)) =
    some (0x01, 0b0001) := by decide
/-- G2, R181 -/
theorem test_cls :
    shows (fun t => (State.litColumns t 3, State.litColumns t 31, t.reg 15))
      (step (State.light (State.light ((ready 0x0AE0).setReg 15 0x01) 3 5) 31 63)) =
    some ([], [], 0x01) := by decide
/-- G7, R182 -/
theorem test_drw_clips :
    shows (fun t => (State.litColumns t 31, State.litColumns t 0, t.reg 15))
      (step (State.poke (State.poke ((ready 0xD122).setReg 1 62 |>.setReg 2 31 |>.setI 0x300) 0x300 0xFF) 0x301 0xFF)) =
    some ([62, 63], [], 0x00) := by decide
/-- G6, R182 -/
theorem test_drw_collision :
    shows (fun t => (State.litColumns t 0, t.reg 15))
      (step (State.light (State.poke ((ready 0xD011).setI 0x300) 0x300 0x81) 0 7)) =
    some ([0], 0x01) := by decide
/-- K1, R200 -/
theorem test_skp :
    shows (fun t => t.pc)
      (step ((ready 0xE59E).setReg 5 0x0A |>.setKey 10 true)) =
    some 0x204 := by decide
/-- K3, R200 -/
theorem test_skp_not_masked :
    shows (fun t => (t.pc, t.errflags))
      (step ((ready 0xE59E).setReg 5 0x1A |>.setKey 10 true)) =
    some (0x202, 0b0010) := by decide
/-- K4, R201 -/
theorem test_sknp :
    shows (fun t => t.pc)
      (step ((ready 0xE5A1).setReg 5 0x0A)) =
    some 0x204 := by decide
/-- K6, R201 -/
theorem test_sknp_bad_key :
    shows (fun t => (t.pc, t.errflags))
      (step ((ready 0xE5A1).setReg 5 0x10)) =
    some (0x202, 0b0010) := by decide
/-- K8, R202 -/
theorem test_ldVxDt :
    shows (fun t => (t.reg 3, t.dt))
      (step ((ready 0xF307).setDt 0x3C)) =
    some (0x3C, 0x3C) := by decide
/-- K9, R203 -/
theorem test_ldVxK_waits :
    shows (fun t => (t.pc, t.reg 4))
      (step ((ready 0xF40A))) =
    some (0x200, 0x00) := by decide
/-- K11, R203 -/
theorem test_ldVxK_lowest :
    shows (fun t => (t.reg 4, t.pc))
      (step ((ready 0xF40A).setKey 12 true |>.setKey 3 true |>.setKey 9 true)) =
    some (0x03, 0x202) := by decide
/-- K13, R204 -/
theorem test_ldDtVx :
    shows (fun t => t.dt)
      (step ((ready 0xF315).setReg 3 0x3C)) =
    some 0x3C := by decide
/-- K14, R205, R228 -/
theorem test_ldStVx :
    shows (fun t => (t.st, tone t))
      (step ((ready 0xF318).setReg 3 0x05)) =
    some (0x05, true) := by decide

/-! ### Host transactions -/

/-- H2, R224 -/
theorem test_tick :
    shows (fun t => (t.dt, t.st))
      (perform .tick ((State.reset.setDt 0xFF).setSt 0x01)) =
    some (0xFE, 0x00) := by decide
/-- H1, R224 -/
theorem test_tick_at_zero :
    shows (fun t => (t.dt, t.st))
      (perform .tick State.reset) =
    some (0x00, 0x00) := by decide
/-- R222: bytes from 0x200, nothing around them -/
theorem test_load :
    shows (fun t => t.bytes 0x1FF 4)
      (perform (.load [0xAA, 0xBB]) State.reset) =
    some [0x00, 0xAA, 0xBB, 0x00] := by decide
/-- H5, R222: 3585 bytes are refused. -/
theorem test_load_too_long : perform (.load (List.replicate 3585 0x01)) State.reset =
    .next (State.reset.report .outOfBounds) := by
  simp only [perform, load, loadError, List.length_replicate]; rfl
/-- H8, R225, R226 -/
theorem test_setKey :
    shows (fun t => (isKeyValue 15 t, isKeyValue 14 t))
      (perform (.setKey 15 true) State.reset) =
    some (true, false) := by decide
/-- R225 (D27) -/
theorem test_setKey_bad_index :
    shows (fun t => (t.key == State.reset.key, t.errflags))
      (perform (.setKey 16 true) State.reset) =
    some (true, 0b0010) := by decide
/-- R226 (D27) -/
theorem test_isKey_bad_index :
    shows (fun t => (isKeyValue 16 t, t.errflags))
      (perform (.isKey 16) State.reset) =
    some (false, 0b0010) := by decide
/-- H10, R221 -/
theorem test_reset :
    shows (fun t => (t.reg 3, t.pc, t.errflags))
      (perform .reset (((State.reset.setReg 3 1).jumpTo 7).report .callStack)) =
    some (0x00, 0x200, 0) := by decide
/-- H11, R227: `FB_READ(x, y)` takes the column first. -/
theorem test_fbRead : fbRead 5 2 (State.light State.reset 2 5) = true ∧
    fbRead 2 5 (State.light State.reset 2 5) = false := by decide
/-- S10, R36, R37: the font block's first and last bytes and its neighbours. -/
theorem test_reset_memory : [0x04F, 0x050, 0x09F, 0x0A0].map State.reset.byte = [0x00, 0xF0, 0x80, 0x00] := by
  decide
/-- R37: glyph A of the default table, `FONT[50]`..`FONT[54]`. -/
theorem test_default_font_glyph : State.reset.bytes 0x082 5 = [0xF0, 0x90, 0xF0, 0x90, 0x90] := by decide
/-- R6, R37: another FONT table. `RESET` restores its bytes over what was stored there, and nothing beside the block. -/
theorem test_reset_other_font :
    shows (fun t => (t.bytes 0x04F 2, t.bytes 0x09F 2))
      (perform .reset (State.poke (State.resetWith (Vector.replicate 80 0xAA)) 0x050 0x11)) =
    some ([0x00, 0xAA], [0xAA, 0x00]) := by decide
/-- R240: the codes of the four errors. -/
theorem test_error_codes : [none, some .outOfBounds, some .invalidRegisterIndex, some .unknownOpcode, some .callStack].map
    errCode = [0, 1, 2, 3, 4] := by decide
/-- R248: the fetch bound comes before the word. -/
theorem test_errOut_priority : errOut .step (State.reset.jumpTo 0xFFF) = some .outOfBounds ∧
    errOut .step State.reset = some .unknownOpcode := by decide

/-! ### The spec's notation -/

/-- Spellings of R76's mnemonic column. -/
theorem test_spelling : [Instr.cls, .jp 0x2A5, .ldImm 10 0x2B, .drw 7 10 5, .ldMemVx 15, .ldVxDt 3].map spelling =
    ["CLS", "JP 0x2A5", "LD VA, 0x2B", "DRW V7, VA, 5", "LD [I], VF", "LD V3, DT"] := by decide

/-- P3's image, from its assembly (R80, R81): labels 0 `end`, 1 `sprite`. -/
theorem test_assemble_P3 :
    (assemble [.atLabel .ldI 1, .instr (.ldImm 0 62), .instr (.ldImm 1 31), .instr (.drw 0 1 2), .instr (.drw 0 1 2),
      .instr (.drw 0 1 2), .label 0, .atLabel .jp 0, .label 1, .db [0xFF, 0x81]]) =
    some (cellsFrom 0x200 [0xA2, 0x0E, 0x60, 0x3E, 0x61, 0x1F, 0xD0, 0x12, 0xD0, 0x12, 0xD0, 0x12, 0x12, 0x0C,
      0xFF, 0x81]) := by decide

/-- P2's image from 0x210 (R81: `ORG`), and P5's `DW`. -/
theorem test_assemble_org_dw :
    assemble [.org 0x210, .instr (.ldI 0x300), .instr (.ldB 10), .instr .ret, .org 0x202, .dw 0x8018] =
      some (cellsFrom 0x210 [0xA3, 0x00, 0xFA, 0x33, 0x00, 0xEE] ++ cellsFrom 0x202 [0x80, 0x18]) ∧
    assemble [.atLabel .call 7] = none := by decide

/-! ### Witnesses: states and operands that meet the hypotheses of the statements, at the boundaries of each clause -/

/-- What an answer shows is true of its next state. -/
theorem of_shows {a : Answer} {p : State → Prop} [DecidablePred p] (h : shows (fun t => decide (p t)) a = some true) :
    ∃ t, a = .next t ∧ p t := by
  cases a with
  | next t => exact ⟨t, rfl, by simpa [shows] using h⟩
  | fault r => simp [shows] at h
  | refused r => simp [shows] at h

theorem witness_LoadWritesTheProgramOrNothing :
    (List.replicate 3584 (0x01 : Byte)).length ≤ 3584 ∧ 3583 < (List.replicate 3584 (0x01 : Byte)).length ∧
    0x200 + (List.replicate 3584 (0x01 : Byte)).length ≤ 0x1000 ∧ ([] : List Byte).length ≤ 3584 ∧
    (List.replicate 3585 (0x01 : Byte)).length > 3584 := by
  simp only [List.length_replicate, List.length_nil]; decide

theorem witness_TickDecrementsBothTimersClampedAtZero :
    (∃ t, step ((ready 0xF315).setReg 3 0x3C) = .next t ∧ t.dt ≠ ((ready 0xF315).setReg 3 0x3C).dt) ∧
    (∃ t, step ((ready 0xF318).setReg 3 0x05) = .next t ∧ t.st ≠ ((ready 0xF318).setReg 3 0x05).st) :=
  ⟨of_shows (by decide), of_shows (by decide)⟩

/-- Key indexes on both sides of the bound, for `SETKEY` and for `ISKEY`. -/
theorem witness_hostKeyIndex : (15 : Fin 16).val = 15 ∧ (16 : Nat) > 15 ∧
    errOut (.setKey 15 true) State.reset = none ∧ errOut (.setKey 16 true) State.reset = some .invalidRegisterIndex ∧
    errOut (.isKey 15) State.reset = none ∧ errOut (.isKey 16) State.reset = some .invalidRegisterIndex := by decide

theorem witness_StepRunsTheDecodedInstruction :
    (ready 0x8124).fetches (.addReg 1 2) ∧ (readyAt 0xFFE 0x3000).fetches (.seImm 0 0) :=
  ⟨⟨by decide, by decide⟩, ⟨by decide, by decide⟩⟩

theorem witness_UnknownWordIsReportedAndPassed :
    ((ready 0x8128).pc.toNat ≤ 0xFFE ∧ decodeBytes (ready 0x8128).fetchBytes = .error .unknownWord) ∧
    ((readyAt 0xFFE 0xFFFF).pc.toNat ≤ 0xFFE ∧
      decodeBytes [(readyAt 0xFFE 0xFFFF).byte 0xFFE, (readyAt 0xFFE 0xFFFF).byte 0xFFF] =
        .error .unknownWord) := by decide

theorem witness_FetchOutsideMemoryIsReported :
    (State.reset.jumpTo 0xFFF).pc.toNat > 0xFFE ∧ (State.reset.jumpTo 0xFFFF).pc.toNat > 0xFFE := by decide

/-- Every error kind is reported by some step. -/
theorem witness_ReportedErrorChangesOnlyPcAndErrflags :
    errOut .step (State.reset.jumpTo 0xFFF) = some .outOfBounds ∧
    errOut .step ((ready 0xE59E).setReg 5 0x10) = some .invalidRegisterIndex ∧
    errOut .step (ready 0x0000) = some .unknownOpcode ∧ errOut .step (ready 0x00EE) = some .callStack ∧
    errOut (.setKey 16 true) State.reset = some .invalidRegisterIndex := by decide

theorem witness_ErrflagsAccumulateTheReports :
    (∃ t, perform .step ((ready 0x00EE).report .outOfBounds) = .next t ∧ t.errflags = 0b1001) ∧
    (∃ t, perform (.isKey 16) (State.reset.report .callStack) = .next t ∧ t.errflags = 0b1010) ∧
    Transaction.step ≠ .reset ∧ Transaction.isKey 16 ≠ .reset :=
  ⟨of_shows (by decide), of_shows (by decide), by decide, by decide⟩

/-- The causes of OutOfBounds at the first value outside, and none at the last inside. -/
theorem witness_OutOfBoundsHasExactlyTheseCauses :
    errOut .step ((ready 0xD012).setI 0xFFF) = some .outOfBounds ∧ errOut .step ((ready 0xD011).setI 0xFFF) = none ∧
    errOut .step ((ready 0xD010).setI 0xFFFF) = none ∧
    errOut .step ((ready 0xF333).setI 0xFFE) = some .outOfBounds ∧ errOut .step ((ready 0xF333).setI 0xFFD) = none ∧
    errOut .step ((ready 0xF155).setI 0xFFF) = some .outOfBounds ∧ errOut .step ((ready 0xF055).setI 0xFFF) = none ∧
    errOut .step ((ready 0xF165).setI 0xFFF) = some .outOfBounds ∧ errOut .step ((ready 0xF065).setI 0xFFF) = none ∧
    errOut .step (readyAt 0xFFE 0x6000) = none := by decide

/-- The causes of InvalidRegisterIndex in a step at 16, and none at 15. -/
theorem witness_InvalidRegisterIndexHasExactlyTheseCauses :
    [0xE09E, 0xE0A1, 0xF029].map (fun w => errOut .step ((ready w).setReg 0 0x10)) =
      [some .invalidRegisterIndex, some .invalidRegisterIndex, some .invalidRegisterIndex] ∧
    [0xE09E, 0xE0A1, 0xF029].map (fun w => errOut .step ((ready w).setReg 0 0x0F)) = [none, none, none] ∧
    Transaction.isKey 16 ≠ .step := by decide

theorem witness_CallStackHasExactlyTheseCauses :
    errOut .step (State.fullStack (ready 0x2300)) = some .callStack ∧ errOut .step (ready 0x2300) = none ∧
    errOut .step (ready 0x00EE) = some .callStack ∧ errOut .step (State.fullStack (ready 0x00EE)) = none := by decide

/-- A state with cells listed, of which some go and some come in the step. -/
def storing : State := State.poke ((ready 0xF155).setReg 0 0x11 |>.setI 0x300) 0x301 0x77

theorem witness_StepKeepsTheInvariant :
    storing.wf ∧ ∃ t, step storing = .next t ∧ t.bytes 0x300 2 = [0x11, 0x00] :=
  ⟨by show Memory.wf _ _; decide, of_shows (by decide)⟩

theorem witness_EveryScheduleRunsAndKeepsTheInvariant : storing.wf ∧
    ∃ t, runSchedule [.step, .tick, .load [0xAA], .setKey 3 true, .isKey 3, .reset] storing = .next t ∧ t.pc = 0x200 :=
  ⟨by show Memory.wf _ _; decide, of_shows (by decide)⟩

theorem witness_HostReachesOnlyItsOwnPorts :
    (∃ t, perform (.setKey 3 true) State.reset = .next t ∧ t.key[(3 : Fin 16)] ≠ State.reset.key[(3 : Fin 16)]) ∧
    (∃ t, perform (.load [0x01]) State.reset = .next t ∧ t.byte 0x200 ≠ State.reset.byte 0x200) ∧
    (∃ t, perform .tick (State.reset.setDt 1) = .next t ∧ t.dt ≠ (State.reset.setDt 1).dt) ∧
    Transaction.load [0x01] ≠ .reset ∧ Transaction.load [0x01] ≠ .step :=
  ⟨of_shows (by decide), of_shows (by decide), of_shows (by decide), by decide, by decide⟩

/-- Each part that the statement speaks of does change in some step, by each of the instructions it lists. -/
theorem witness_OnlyTheListedInstructionsWriteEachPart :
    (∃ t, step (ready 0xA2F0) = .next t ∧ t.i ≠ (ready 0xA2F0).i) ∧
    (∃ t, step (ready 0x2300) = .next t ∧ t.sp ≠ (ready 0x2300).sp ∧ t.stack ≠ (ready 0x2300).stack) ∧
    (∃ t, step (State.fullStack (ready 0x00EE)) = .next t ∧ t.sp.val ≠ 16) ∧
    (∃ t, step ((ready 0xD005).setI 0x050) = .next t ∧ t.fb.pixel 0 0 ≠ (ready 0xD005).fb.pixel 0 0) ∧
    (∃ t, step ((ready 0xF033).setReg 0 1 |>.setI 0x300) = .next t ∧ t.byte 0x302 ≠ 0x00) ∧
    (∃ t, step storing = .next t ∧ t.mem ≠ storing.mem) :=
  ⟨of_shows (by decide), of_shows (by decide), of_shows (by decide), of_shows (by decide), of_shows (by decide),
    of_shows (by decide)⟩

theorem witness_RandomDrawIsCounted : ∃ t, exec (.rnd 0 0xFF) (ready 0xC0FF).advance = .next t ∧
    t.draws ≠ (ready 0xC0FF).draws := ⟨_, rfl, by decide⟩

theorem witness_RegistersChangeOnlyAsDestinationOrFlag :
    (∃ t, step (ready 0x6A2B) = .next t ∧ t.reg 10 ≠ (ready 0x6A2B).reg 10) ∧
    (∃ t, step ((ready 0x8124).setReg 1 0xFF |>.setReg 2 0xFF) = .next t ∧ t.reg 15 ≠ 0x00) ∧
    namesDestination (.ldImm 10 0x2B) 10 = true ∧ definesFlag (.addReg 1 2) = true :=
  ⟨of_shows (by decide), of_shows (by decide), by decide, by decide⟩

/-- Storing `V0`, `V1` = 6A 2B at the last two bytes of memory, over the next instruction. -/
theorem witness_NextFetchSeesTheStoredBytes :
    let s := (((State.reset.setReg 0 0x6A).setReg 1 0x2B).setI 0xFFE).jumpTo 0xFFE
    s.i.toNat + (1 : RegIdx).val ≤ 0xFFF ∧ (1 : RegIdx).val = (0 : RegIdx).val + 1 ∧ (1 : RegIdx).val ≤ (1 : RegIdx).val ∧
      s.pc.toNat = s.i.toNat + (0 : RegIdx).val ∧ decodeBytes [s.reg 0, s.reg 1] = .ok (.ldImm 10 0x2B, []) := by decide

theorem witness_decodeWord : decodeWord 0x5A7C = some (.seReg 10 7) ∧ rowOf (.seReg 10 7) ∈ opcodeTable ∧
    (rowOf (.seReg 10 7)).selects 0x5A7C = true ∧ (rowOf (.sneReg 10 7)).selects 0x5A7C = false := by decide

/-- Two orders of the same writes, one of them into the font block. -/
theorem witness_CanonicalMemoriesThatReadAlikeAreEqual :
    let m := Memory.write (Memory.write [] defaultFont 0x300 1) defaultFont 0x050 2
    let m' := Memory.write (Memory.write (Memory.write [] defaultFont 0x050 3) defaultFont 0x050 2) defaultFont 0x300 1
    m.wf defaultFont ∧ m'.wf defaultFont ∧ ∀ a : Nat, a ≤ 0xFFF → m.read defaultFont a = m'.read defaultFont a := by
  refine ⟨by decide, by decide, fun a _ => ?_⟩
  simp only [Memory.read_write]
  by_cases h : a = 0x300 <;> by_cases h' : a = 0x050 <;> simp_all

theorem witness_JumpSetsPcAndSelfJumpHalts :
    (ready 0x1200).fetches (.jp 0x200) ∧ (0x200 : Addr).toNat = (ready 0x1200).pc.toNat :=
  ⟨⟨by decide, by decide⟩, by decide⟩

theorem witness_JumpWithOffsetAddsRegisterZero :
    (0xFFF : Addr).toNat + ((State.reset.setReg 0 0xFF).reg 0).toNat > 0xFFE ∧
    (0xFFF : Addr).toNat + (State.reset.reg 0).toNat > 0xFFE := by decide

/-- `SP` = 0, 15 and 16. -/
theorem witness_stackDepths :
    State.reset.sp.val = 0 ∧ (State.pop (State.fullStack State.reset)).sp.val = (14 : Fin 16).val + 1 ∧
    (State.pop (State.fullStack State.reset)).sp.val < 16 ∧
    (State.fullStack State.reset).sp.val = 16 ∧ (State.fullStack State.reset).sp.val = (15 : Fin 16).val + 1 := by decide

/-- The sixteenth call and its return; between them another register changes. -/
theorem witness_ReturnUndoesCall : ∃ s t u : State, s.sp.val = 15 ∧ exec (.call 0x300) s = .next t ∧
    u.sp = t.sp ∧ (∀ k : Fin 16, u.stack[k] = t.stack[k]) ∧ u.reg 3 ≠ t.reg 3 := by
  refine ⟨State.pop (State.fullStack (ready 0x2300).advance), _, State.setReg _ 3 0x99, by decide, rfl, rfl, ?_, ?_⟩
  · exact fun k => rfl
  · decide

/-- A register that is neither the destination nor the flag, and a destination that is not the flag. -/
theorem witness_registers : (1 : RegIdx) ≠ 0 ∧ (1 : RegIdx) ≠ 15 ∧ (0 : RegIdx) ≠ 15 := by decide

/-- Digits and key numbers on both sides of 15. -/
theorem witness_indexes : ((State.reset.setReg 2 0x0F).reg 2).toNat ≤ 15 ∧
    ((State.reset.setReg 2 0x0F).reg 2).toNat = (15 : Fin 16).val ∧ ((State.reset.setReg 2 0x10).reg 2).toNat > 15 := by
  decide

/-- The last base inside and the first outside, for the three bytes of `LD B`, for one and for two registers. -/
theorem witness_blocks : (State.reset.setI 0xFFD).ea 2 ≤ 0xFFF ∧ (State.reset.setI 0xFFE).ea 2 > 0xFFF ∧
    (State.reset.setI 0xFFF).ea (0 : RegIdx).val ≤ 0xFFF ∧ (State.reset.setI 0xFFF).ea (1 : RegIdx).val > 0xFFF ∧
    (0xFFC : Nat) < (State.reset.setI 0xFFD).ea 0 ∧ (State.reset.setI 0xFFD).ea 2 < 0x1000 := by decide

theorem witness_BlockLoadUndoesBlockStore : ∃ s t u : State, s.ea (5 : RegIdx).val ≤ 0xFFF ∧
    exec (.ldMemVx 5) s = .next t ∧ u.i = t.i ∧ (∀ a : Nat, u.byte a = t.byte a) ∧ u.reg 3 ≠ t.reg 3 := by
  refine ⟨State.reset.setI 0x400, _, State.setReg _ 3 0x99, by decide, rfl, rfl, fun _ => rfl, ?_⟩
  decide

/-- Heights 0, 1 and 2 at the edge of memory; a lit pixel that meets a 1 bit (G6); none that does (G5). -/
theorem witness_DrawXorsTheWindowAndSetsCollision :
    ((0x0 : BitVec 4).toNat = 0) ∧ (State.reset.setI 0xFFF).i.toNat + (1 : BitVec 4).toNat - 1 ≤ 0xFFF ∧
    ((2 : BitVec 4).toNat > 0 ∧ (State.reset.setI 0xFFF).i.toNat + (2 : BitVec 4).toNat - 1 > 0xFFF) ∧
    ((State.light State.reset 0 7).fb.pixel 0 7 = true ∧ windowBit 0 0 [0x81] 0 7 = true) ∧
    (∀ row col : Nat, State.reset.fb.pixel row col = true → windowBit 0 0 [0x81] row col = false) := by
  refine ⟨by decide, by decide, by decide, by decide, fun row col h => ?_⟩
  have : State.reset.fb.pixel row col = false := Framebuffer.pixel_clear row col
  rw [this] at h; cases h

theorem witness_DrawingTwiceRestoresTheFramebuffer : ∃ s t : State,
    s.i.toNat + (1 : BitVec 4).toNat - 1 ≤ 0xFFF ∧ exec (.drw 0 1 1) s = .next t ∧
    (t.reg 0).toNat % 64 = (s.reg 0).toNat % 64 ∧ (t.reg 1).toNat % 32 = (s.reg 1).toNat % 32 ∧
    s.fb.pixel 0 0 = false ∧ t.fb.pixel 0 0 = true := by
  obtain ⟨t, h, h'⟩ : ∃ t, exec (.drw 0 1 1) (State.reset.setI 0x050) = .next t ∧ t.fb.pixel 0 0 = true ∧
      t.reg 0 = 0 ∧ t.reg 1 = 0 := of_shows (by decide)
  refine ⟨_, t, by decide, h, ?_, ?_, by decide, h'.1⟩
  · rw [h'.2.1]; decide
  · rw [h'.2.2]; decide

theorem witness_KeyWaitTakesTheLowestKeyOrStays :
    let s := (State.reset.setKey 3 true).setKey 12 true
    s.key[(3 : Fin 16)] = true ∧ (∀ j : Fin 16, j < 3 → s.key[j] = false) ∧
    (∀ k : Fin 16, State.reset.key[k] = false) := by decide

theorem witness_WaitingAndEndedMachinesAreUnchangedByAStep : (ready 0xF40A).waiting ∧ (ready 0x1200).ended :=
  ⟨⟨⟨4, by decide⟩, by decide⟩, by decide, 0x200, by decide, by decide⟩

end Sys2Proof.Tests
end

-- PROOFS of the control-transfer family (41_control_flow.md): the rules of fetch, step, jump and skip they need,
-- then the statements they settle.
section
namespace Sys2Proof.Machine

/-! ### Fetch and step -/

/-- A step that fetches an instruction runs it on the state after the advance (R92, R95). -/
theorem step_of_fetch {s : State} {i : Instr} (h : fetch s = .ok i) : step s = exec i s.advance := by
  simp [step, h]

/-- A step with `PC` above 0xFFE reports OutOfBounds (R91). -/
theorem errOut_step_outside {s : State} (h : s.pc.toNat > 0xFFE) : errOut .step s = some .outOfBounds := by
  simp [errOut, stepError, fetch_outside s h]

/-! ### Jumps -/

@[simp] theorem exec_jp (nnn : Addr) (s : State) : exec (.jp nnn) s = .next (s.jumpTo (target nnn)) := rfl

/-- A jump overwrites the advance of its fetch. -/
@[simp] theorem State.advance_jumpTo (s : State) (a : Word) : s.advance.jumpTo a = s.jumpTo a := rfl

@[simp] theorem State.jumpTo_pc_self (s : State) : s.jumpTo s.pc = s := rfl

/-- The halt idiom (R111): the step of a jump to its own address changes nothing. -/
theorem step_of_fetch_selfJump {s : State} {nnn : Addr} (h : fetch s = .ok (.jp nnn))
    (hself : nnn.toNat = s.pc.toNat) : step s = .next s := by
  have htarget : target nnn = s.pc := BitVec.eq_of_toNat_eq (by rw [target_toNat, hself])
  rw [step_of_fetch h, exec_jp, State.advance_jumpTo, htarget, State.jumpTo_pc_self]

/-- Settles O31: the target is the zero-extended field, 0xFFF lies above the last address that can be fetched, and
a jump to its own address undoes the advance of its fetch. -/
theorem jumpSetsPcAndSelfJumpHalts : Obligations.JumpSetsPcAndSelfJumpHalts := by
  unfold Obligations.JumpSetsPcAndSelfJumpHalts
  constructor
  · intro nnn s
    refine ⟨_, exec_jp nnn s, target_toNat nnn, jumpTo_frame s _, ?_⟩
    rintro rfl
    exact errOut_step_outside (by rw [State.jumpTo_pc]; decide)
  · intro nnn s hfetch hself
    exact step_of_fetch_selfJump ((fetches_iff s _).mp hfetch) hself

/-! ### Skips -/

@[simp] theorem exec_seImm (x : RegIdx) (kk : Byte) (s : State) :
    exec (.seImm x kk) s = .next (skipIf (s.reg x == kk) s) := rfl

@[simp] theorem exec_sneImm (x : RegIdx) (kk : Byte) (s : State) :
    exec (.sneImm x kk) s = .next (skipIf (s.reg x != kk) s) := rfl

/-- A skip adds 2 to `PC` modulo 2^16 when its condition holds, and nothing otherwise (R118). -/
theorem skipIf_pc_toNat (c : Bool) (s : State) :
    (skipIf c s).pc.toNat = (s.pc.toNat + if c then 2 else 0) % 65536 := by
  cases c with
  | false => exact (Nat.mod_eq_of_lt s.pc.isLt).symm
  | true => exact BitVec.toNat_add s.pc 2

/-- Settles O36: both instructions are one skip, on the comparison and on its negation. -/
theorem skipsOnImmediateComparison : Obligations.SkipsOnImmediateComparison := by
  unfold Obligations.SkipsOnImmediateComparison
  intro x kk s
  constructor
  · exact ⟨_, exec_seImm x kk s, by simp only [skipIf_pc_toNat, beq_iff_eq], skipIf_frame s _⟩
  · exact ⟨_, exec_sneImm x kk s, by simp only [skipIf_pc_toNat, bne_iff_ne, ne_eq, ite_not], skipIf_frame s _⟩

end Sys2Proof.Machine
end

-- PROOFS of the ALU family (42_alu.md): what one register write and the flag-then-result write leave in each
-- register, then the statements they settle.
section
namespace Sys2Proof.Machine

/-! ### One register written -/

theorem State.setReg_reg_same (s : State) (x : RegIdx) (b : Byte) : (s.setReg x b).reg x = b := by
  rw [State.setReg_reg, if_pos rfl]

theorem State.setReg_reg_of_ne (s : State) {x r : RegIdx} (b : Byte) (h : r ≠ x) :
    (s.setReg x b).reg r = s.reg r := by
  rw [State.setReg_reg, if_neg h.symm]

@[simp] theorem exec_ldImm (x : RegIdx) (kk : Byte) (s : State) : exec (.ldImm x kk) s = .next (s.setReg x kk) := rfl

@[simp] theorem exec_addImm (x : RegIdx) (kk : Byte) (s : State) :
    exec (.addImm x kk) s = .next (s.setReg x (s.reg x + kk)) := rfl

/-- Settles O38: both instructions are one write of `V[x]`, so no other register can change, the flag included. -/
theorem immediateLoadAndAdd : Obligations.ImmediateLoadAndAdd := by
  unfold Obligations.ImmediateLoadAndAdd
  intro x kk s
  constructor
  · exact ⟨_, exec_ldImm x kk s, s.setReg_reg_same x _, fun r hr => s.setReg_reg_of_ne _ hr, setReg_frame s x _⟩
  · refine ⟨_, exec_addImm x kk s, ?_, fun r hr => s.setReg_reg_of_ne _ hr, setReg_frame s x _⟩
    rw [State.setReg_reg_same, BitVec.toNat_add]

/-! ### The flag, then the result (R130 (d)) -/

/-- The result is written last, so it remains for `x` = 15 too (R130 (d), D14). -/
theorem State.setFlagThenReg_reg_dest (s : State) (x : RegIdx) (flag : Bool) (b : Byte) :
    (s.setFlagThenReg x flag b).reg x = b := by
  rw [setFlagThenReg_reg, if_pos rfl]

theorem State.setFlagThenReg_reg_flag (s : State) {x : RegIdx} (flag : Bool) (b : Byte) (h : x ≠ 15) :
    (s.setFlagThenReg x flag b).reg 15 = flagByte flag := by
  rw [setFlagThenReg_reg, if_neg h, if_pos rfl]

theorem State.setFlagThenReg_reg_other (s : State) {x r : RegIdx} (flag : Bool) (b : Byte) (hx : r ≠ x)
    (h15 : r ≠ 15) : (s.setFlagThenReg x flag b).reg r = s.reg r := by
  rw [setFlagThenReg_reg, if_neg hx.symm, if_neg h15.symm]

theorem setFlagThenReg_frame (s : State) (x : RegIdx) (flag : Bool) (b : Byte) :
    keepsAllBut [.v] s (s.setFlagThenReg x flag b) :=
  keepsAllBut_mono (keepsAllBut_trans (setReg_frame s 15 _) (setReg_frame _ x b)) (by simp)

@[simp] theorem exec_addReg (x y : RegIdx) (s : State) : exec (.addReg x y) s =
    .next (s.setFlagThenReg x (carryOut (s.reg x) (s.reg y)) (s.reg x + s.reg y)) := rfl

/-- The carry flag as a number (R137). -/
theorem flagByte_carryOut_toNat (a b : Byte) :
    (flagByte (carryOut a b)).toNat = if a.toNat + b.toNat > 255 then 1 else 0 := by
  simp only [flagByte_toNat, carryOut, decide_eq_true_eq]

/-- Settles O40: sum and carry are computed from the old registers, the carry is written before the sum. -/
theorem addSetsSumAndCarry : Obligations.AddSetsSumAndCarry := by
  unfold Obligations.AddSetsSumAndCarry
  intro x y s
  refine ⟨_, exec_addReg x y s, ?sum, ?carry, fun r hx h15 => s.setFlagThenReg_reg_other _ _ hx h15,
    setFlagThenReg_frame s x _ _⟩
  case sum => rw [State.setFlagThenReg_reg_dest, BitVec.toNat_add]
  case carry =>
    intro hx
    rw [State.setFlagThenReg_reg_flag s _ _ hx, flagByte_carryOut_toNat]

end Sys2Proof.Machine
end

-- PROOFS of the index and memory family (43_index_memory.md): what `LD I` does, then the statement it settles.
section
namespace Sys2Proof.Machine

@[simp] theorem exec_ldI (nnn : Addr) (s : State) : exec (.ldI nnn) s = .next (s.setI (target nnn)) := rfl

/-- Settles O45: the instruction is one write of `I`, with the field zero-extended. -/
theorem loadIndexSetsTheAddress : Obligations.LoadIndexSetsTheAddress := by
  unfold Obligations.LoadIndexSetsTheAddress
  intro nnn s
  refine ⟨_, exec_ldI nnn s, ?_, setI_frame s _⟩
  rw [State.setI_i, target_toNat]

end Sys2Proof.Machine
end

-- PROOFS of the keypad and timer family (45_keypad_timers.md): a tick of one timer, the tone, and what the three timer
-- instructions do, then the statement they settle.
section
namespace Sys2Proof.Machine

/-! ### The timers under the host -/

/-- A decrement is the truncated subtraction of the naturals: the floor at zero is theirs (R27). -/
theorem countDown_toNat (b : Byte) : (countDown b).toNat = b.toNat - 1 := by
  unfold countDown
  split
  case isTrue hpos => exact BitVec.toNat_sub_of_le (BitVec.le_def.mpr hpos)
  case isFalse hzero => omega

@[simp] theorem perform_tick (s : State) : perform .tick s = .next (tick s) := rfl

@[simp] theorem tick_dt (s : State) : (tick s).dt = countDown s.dt := rfl

/-- The host's tone is on iff the sound timer is above zero (R228). -/
theorem tone_iff (s : State) : tone s = true ↔ s.st.toNat > 0 := decide_eq_true_iff

/-! ### The timer instructions -/

@[simp] theorem exec_ldVxDt (x : RegIdx) (s : State) : exec (.ldVxDt x) s = .next (s.setReg x s.dt) := rfl

@[simp] theorem exec_ldDtVx (x : RegIdx) (s : State) : exec (.ldDtVx x) s = .next (s.setDt (s.reg x)) := rfl

@[simp] theorem exec_ldStVx (x : RegIdx) (s : State) : exec (.ldStVx x) s = .next (s.setSt (s.reg x)) := rfl

/-- Settles O56: each instruction is one write, of `V[x]`, `DT` or `ST`; the tick and the tone that follow see the
value just written. -/
theorem timerReadsAndWrites : Obligations.TimerReadsAndWrites := by
  unfold Obligations.TimerReadsAndWrites
  intro x s
  refine ⟨?readDelay, ?setDelay, ?setSound, tone_iff s⟩
  case readDelay =>
    exact ⟨_, exec_ldVxDt x s, s.setReg_reg_same x _, fun r hr => s.setReg_reg_of_ne _ hr, setReg_frame s x _⟩
  case setDelay =>
    refine ⟨_, exec_ldDtVx x s, s.setDt_dt _, setDt_frame s _, _, perform_tick _, ?_⟩
    rw [tick_dt, State.setDt_dt, countDown_toNat]
  case setSound =>
    refine ⟨_, exec_ldStVx x s, s.setSt_st _, setSt_frame s _, ?_⟩
    rw [tone_iff, State.setSt_st]

end Sys2Proof.Machine
end

-- PROOFS of the host interface family (50_host_interface.md): the parts of the state each instruction may write, what
-- that says of a step, and a tick of both timers, then the statement they settle.
section
namespace Sys2Proof.Machine

/-! ### What an instruction may write (R38) -/

/-- The parts a handler may write when it meets no error: R38's table of writers, read by instruction. -/
def writtenParts : Instr → List Part
  | .cls => [.fb]
  | .drw _ _ _ => [.fb, .v]
  | .ret => [.sp, .pc]
  | .call _ => [.sp, .stack, .pc]
  | .jp _ | .jpV0 _ | .seImm _ _ | .sneImm _ _ | .seReg _ _ | .sneReg _ _ | .skp _ | .sknp _ => [.pc]
  | .ldImm _ _ | .addImm _ _ | .ldReg _ _ | .orReg _ _ | .andReg _ _ | .xorReg _ _ | .addReg _ _ | .sub _ _
  | .shr _ _ | .subn _ _ | .shl _ _ | .ldVxDt _ | .ldVxMem _ => [.v]
  | .rnd _ _ => [.v, .draws]
  | .ldVxK _ => [.v, .pc]
  | .ldDtVx _ => [.dt]
  | .ldStVx _ => [.st]
  | .ldI _ | .addI _ | .ldF _ => [.i]
  | .ldB _ | .ldMemVx _ => [.mem]

/-- Only `LD DT, Vx` writes the delay timer (R27, R38). -/
theorem eq_ldDtVx_of_dt_mem {i : Instr} (h : .dt ∈ writtenParts i) : ∃ x, i = .ldDtVx x := by
  cases i with
  | ldDtVx x => exact ⟨x, rfl⟩
  | _ => simp [writtenParts] at h

/-- Only `LD ST, Vx` writes the sound timer (R28, R38). -/
theorem eq_ldStVx_of_st_mem {i : Instr} (h : .st ∈ writtenParts i) : ∃ x, i = .ldStVx x := by
  cases i with
  | ldStVx x => exact ⟨x, rfl⟩
  | _ => simp [writtenParts] at h

theorem attempt_of_eq_none {err : Option ErrorKind} (h : err = none) (s e : State) : attempt err s e = .next e := by
  rw [h, attempt_none]

/-- The key wait takes a key into its register, or goes back to its own address (R203). -/
theorem execLdVxK_frame (x : RegIdx) (s : State) : ∃ t, execLdVxK x s = .next t ∧ keepsAllBut [.v, .pc] s t := by
  unfold execLdVxK
  cases s.lowestKey with
  | some k => exact ⟨_, rfl, keepsAllBut_mono (setReg_frame s x _) (by simp)⟩
  | none => exact ⟨_, rfl, keepsAllBut_mono (rewind_frame s) (by simp)⟩

/-- A handler that meets no error answers a next state, and that differs in the written parts only. -/
theorem exec_frame {i : Instr} {s : State} (herr : handlerError i s = none) :
    ∃ t, exec i s = .next t ∧ keepsAllBut (writtenParts i) s t := by
  cases i with
  | cls => exact ⟨_, rfl, setFb_frame s _⟩
  | drw => exact ⟨_, attempt_of_eq_none herr s _, keepsAllBut_trans (setFb_frame s _) (setReg_frame _ 15 _)⟩
  | ret => exact ⟨_, attempt_of_eq_none herr s _, keepsAllBut_trans (pop_frame s) (jumpTo_frame _ _)⟩
  | call => exact ⟨_, attempt_of_eq_none herr s _, keepsAllBut_trans (push_frame s _) (jumpTo_frame _ _)⟩
  | jp | jpV0 => exact ⟨_, rfl, jumpTo_frame s _⟩
  | seImm | sneImm | seReg | sneReg => exact ⟨_, rfl, skipIf_frame s _⟩
  | skp | sknp => exact ⟨_, attempt_of_eq_none herr s _, skipIf_frame s _⟩
  | ldImm | addImm | ldReg | orReg | andReg | xorReg | ldVxDt => exact ⟨_, rfl, setReg_frame s _ _⟩
  | addReg | sub | shr | subn | shl => exact ⟨_, rfl, setFlagThenReg_frame s _ _ _⟩
  | ldVxMem => exact ⟨_, attempt_of_eq_none herr s _, loadRegs_frame s _⟩
  | rnd => exact ⟨_, rfl, keepsAllBut_trans (setReg_frame s _ _) (countDraw_frame _)⟩
  | ldVxK x => exact execLdVxK_frame x s
  | ldDtVx => exact ⟨_, rfl, setDt_frame s _⟩
  | ldStVx => exact ⟨_, rfl, setSt_frame s _⟩
  | ldI | addI => exact ⟨_, rfl, setI_frame s _⟩
  | ldF => exact ⟨_, attempt_of_eq_none herr s _, setI_frame s _⟩
  | ldB | ldMemVx => exact ⟨_, attempt_of_eq_none herr s _, store_frame s _ _⟩

/-! ### What a step may change -/

/-- A part that differs is one the frame lists. -/
theorem mem_of_not_same {changed : List Part} {s t : State} {p : Part} (h : keepsAllBut changed s t)
    (hp : ¬ p.same s t) : p ∈ changed :=
  Decidable.byContradiction fun hnot => hp (h p hnot)

/-- Beside `PC` and `ERRFLAGS`, a step changes only what the instruction it fetches writes. -/
theorem step_changes_only_written {s t : State} {p : Part} (h : step s = .next t) (hp : ¬ p.same s t)
    (hpc : p ≠ .pc) (hflags : p ≠ .errflags) : ∃ i, s.fetches i ∧ p ∈ writtenParts i := by
  obtain ⟨k, -, hstep⟩ | ⟨i, hfetch, herr, -, hstep⟩ := step_cases s
  · obtain rfl : s.advance.report k = t := by simpa [hstep] using h
    obtain ⟨-, hframe⟩ := report_reports s.advance k
    have hmem : p ∈ [.pc, .errflags] := mem_of_not_same (keepsAllBut_trans (advance_frame s) hframe) hp
    simp [hpc, hflags] at hmem
  · obtain ⟨u, hexec, hframe⟩ := exec_frame herr
    obtain rfl : u = t := by simpa [hstep, hexec] using h
    have hmem : p ∈ .pc :: writtenParts i := mem_of_not_same (keepsAllBut_trans (advance_frame s) hframe) hp
    exact ⟨i, (fetches_iff s i).mpr hfetch, List.mem_of_ne_of_mem hpc hmem⟩

/-- The delay timer does not run down in a step (R224). -/
theorem step_changes_dt {s t : State} (h : step s = .next t) (hdt : t.dt ≠ s.dt) : ∃ x, s.fetches (.ldDtVx x) := by
  obtain ⟨i, hfetch, hmem⟩ := step_changes_only_written (p := .dt) h hdt (by decide) (by decide)
  obtain ⟨x, rfl⟩ := eq_ldDtVx_of_dt_mem hmem
  exact ⟨x, hfetch⟩

/-- The sound timer does not run down in a step (R224). -/
theorem step_changes_st {s t : State} (h : step s = .next t) (hst : t.st ≠ s.st) : ∃ x, s.fetches (.ldStVx x) := by
  obtain ⟨i, hfetch, hmem⟩ := step_changes_only_written (p := .st) h hst (by decide) (by decide)
  obtain ⟨x, rfl⟩ := eq_ldStVx_of_st_mem hmem
  exact ⟨x, hfetch⟩

/-! ### A tick of both timers -/

@[simp] theorem tick_st (s : State) : (tick s).st = countDown s.st := rfl

theorem tick_frame (s : State) : keepsAllBut [.dt, .st] s (tick s) :=
  keepsAllBut_trans (setDt_frame s _) (setSt_frame _ _)

@[simp] theorem errOut_tick (s : State) : errOut .tick s = none := rfl

/-- Settles O5: a tick is one decrement of each timer, and a step changes only `PC`, `ERRFLAGS` and what its
instruction writes, which is a timer for the two timer loads alone. -/
theorem tickDecrementsBothTimersClampedAtZero : Obligations.TickDecrementsBothTimersClampedAtZero := by
  unfold Obligations.TickDecrementsBothTimersClampedAtZero
  constructor
  · intro s
    refine ⟨_, perform_tick s, ?delay, ?sound, tick_frame s, errOut_tick s⟩
    case delay => rw [tick_dt, countDown_toNat]
    case sound => rw [tick_st, countDown_toNat]
  · exact fun s t h => ⟨step_changes_dt h, step_changes_st h⟩

end Sys2Proof.Machine
end

-- PROOFS of the decoder and the encoder (30_encoding.md): a word is put together by its fields, the fields its row's
-- mask keeps decide the instruction, then the statements they settle.
section
namespace Sys2Proof

/-! ### Decoding an encoded instruction -/

/-- The dispatcher finds the instruction in the fields of its own word (R71, R76). -/
@[simp] theorem decodeWord_encode (i : Instr) : decodeWord (encode i) = some i := by
  cases i with
  | cls | ret => decide
  | jp | call | ldI | jpV0 => simp [encode, decodeWord, dispatch]
  | seImm | sneImm | ldImm | addImm | rnd => simp [encode, decodeWord, dispatch]
  | seReg | sneReg | drw => simp [encode, decodeWord, dispatch]
  | ldReg | orReg | andReg | xorReg | addReg | sub | shr | subn | shl =>
    simp [encode, decodeWord, dispatch, dispatch8]
  | skp | sknp => simp [encode, decodeWord, dispatch, dispatchE]
  | ldVxDt | ldVxK | ldDtVx | ldStVx | addI | ldF | ldB | ldMemVx | ldVxMem =>
    simp [encode, decodeWord, dispatch, dispatchF]

/-- Settles O25: the two bytes of an instruction form its word again, whatever follows, and the word decodes to it. -/
theorem decodeGivesBackEveryEncodedInstruction : Obligations.DecodeGivesBackEveryEncodedInstruction := by
  unfold Obligations.DecodeGivesBackEveryEncodedInstruction
  intro i rest
  rw [encodeBytes, List.cons_append, List.cons_append, List.nil_append, decodeBytes_pair, wordOf_bytes,
    decodeWord_encode]

/-! ### A word from its fields -/

/-- The library's law of adjacent fields, with the position of their border as an argument. -/
theorem extract_join (w : Word) (low lowLen highLen : Nat) :
    w.extractLsb' (low + lowLen) highLen ++ w.extractLsb' low lowLen = w.extractLsb' low (highLen + lowLen) :=
  BitVec.extractLsb'_append_extractLsb'_eq_extractLsb' rfl

theorem encNNN_of_op {w : Word} {op : BitVec 4} (hop : (fieldsOf w).op = op) : encNNN op (fieldsOf w).nnn = w := by
  subst hop
  exact (extract_join w 0 12 4).trans BitVec.extractLsb'_eq_self

theorem encXKK_of_op {w : Word} {op : BitVec 4} (hop : (fieldsOf w).op = op) :
    encXKK op (fieldsOf w).x (fieldsOf w).kk = w := by
  subst hop
  show (w.extractLsb' 12 4 ++ w.extractLsb' 8 4 : BitVec 8) ++ w.extractLsb' 0 8 = w
  rw [extract_join w 8 4 4]
  exact (extract_join w 0 8 8).trans BitVec.extractLsb'_eq_self

theorem encXYN_of_op {w : Word} {op : BitVec 4} (hop : (fieldsOf w).op = op) :
    encXYN op (fieldsOf w).x (fieldsOf w).y (fieldsOf w).n = w := by
  subst hop
  show (w.extractLsb' 12 4 ++ w.extractLsb' 8 4 : BitVec 8) ++ (w.extractLsb' 4 4 ++ w.extractLsb' 0 4 : BitVec 8) = w
  rw [extract_join w 8 4 4, extract_join w 0 4 4]
  exact (extract_join w 0 8 8).trans BitVec.extractLsb'_eq_self

/-- The mask that clears the low nibble keeps `op`, `x` and `y` (R77). -/
theorem mask_op_x_y (w : Word) : w &&& 0xFFF0#16 = encXYN (fieldsOf w).op (fieldsOf w).x (fieldsOf w).y 0 := by
  show _ = ((w.extractLsb' 12 4 ++ w.extractLsb' 8 4) ++ (w.extractLsb' 4 4 ++ 0#4) : BitVec ((4 + 4) + (4 + 4)))
  apply BitVec.eq_of_getLsbD_eq
  intro j hj
  rw [BitVec.getLsbD_append, BitVec.getLsbD_append, BitVec.getLsbD_append, BitVec.getLsbD_and]
  interval_cases j <;> simp

/-! ### Encoding a decoded word, family by family -/

theorem encode_of_dispatch8 {f : Fields} {i : Instr} (h : dispatch8 f = some i) :
    encode i = encXYN 0x8 f.x f.y f.n ∧ ignoredBits i = 0 := by
  unfold dispatch8 at h
  split at h <;> cases h <;> simp [encode, ignoredBits, *]

theorem encode_of_dispatchE {f : Fields} {i : Instr} (h : dispatchE f = some i) :
    encode i = encXKK 0xE f.x f.kk ∧ ignoredBits i = 0 := by
  unfold dispatchE at h
  split at h <;> cases h <;> simp [encode, ignoredBits, *]

theorem encode_of_dispatchF {f : Fields} {i : Instr} (h : dispatchF f = some i) :
    encode i = encXKK 0xF f.x f.kk ∧ ignoredBits i = 0 := by
  unfold dispatchF at h
  split at h <;> cases h <;> simp [encode, ignoredBits, *]

theorem encode_of_dispatch0 {f : Fields} {i : Instr} (h : dispatch0 f = some i) :
    encode i = (0#4 ++ (0#4 ++ f.kk) : BitVec (4 + (4 + 8))) ∧ ignoredBits i = 0x0F00 := by
  unfold dispatch0 at h
  split at h <;> cases h <;> simp [encode, ignoredBits, *]

theorem encode_eq_mask {i : Instr} {w ignored : Word} (hign : ignoredBits i = ignored)
    (henc : encode i = w &&& ~~~ ignored) : encode i = w &&& ~~~ ignoredBits i := hign ▸ henc

/-- Where no bit is ignored, the encoding is the word itself (R77). -/
theorem encode_eq_mask_zero {i : Instr} {w : Word} (hign : ignoredBits i = 0) (henc : encode i = w) :
    encode i = w &&& ~~~ ignoredBits i :=
  encode_eq_mask hign (henc.trans BitVec.and_allOnes.symm)

/-- The last family is 0xF: fifteen others stand before it (R74). -/
theorem op_eq_F : ∀ op : BitVec 4,
    op ∉ [0x0, 0x1, 0x2, 0x3, 0x4, 0x5, 0x6, 0x7, 0x8, 0x9, 0xA, 0xB, 0xC, 0xD, 0xE] → op = 0xF := by decide

/-- The fields that make up the encoding are the word's own, all of them but in the rows that ignore bits, where the
mask of the rest keeps them (R77). -/
theorem encode_of_decodeWord {w : Word} {i : Instr} (h : decodeWord w = some i) :
    encode i = w &&& ~~~ ignoredBits i := by
  have hkk := mask_op_kk w
  have hxy := mask_op_x_y w
  unfold decodeWord dispatch at h
  split at h
  case h_1 hop =>
    obtain ⟨henc, hign⟩ := encode_of_dispatch0 h
    exact encode_eq_mask hign (henc.trans (hop ▸ hkk).symm)
  case h_2 hop | h_3 hop | h_11 hop | h_12 hop =>
    cases h
    exact encode_eq_mask_zero rfl (encNNN_of_op hop)
  case h_4 hop | h_5 hop | h_7 hop | h_8 hop | h_13 hop =>
    cases h
    exact encode_eq_mask_zero rfl (encXKK_of_op hop)
  case h_6 hop | h_10 hop =>
    cases h
    exact encode_eq_mask (ignored := 0x000F) rfl (hop ▸ hxy).symm
  case h_14 hop =>
    cases h
    exact encode_eq_mask_zero rfl (encXYN_of_op hop)
  case h_9 hop =>
    obtain ⟨henc, hign⟩ := encode_of_dispatch8 h
    exact encode_eq_mask_zero hign (henc.trans (encXYN_of_op hop))
  case h_15 hop =>
    obtain ⟨henc, hign⟩ := encode_of_dispatchE h
    exact encode_eq_mask_zero hign (henc.trans (encXKK_of_op hop))
  case h_16 =>
    have hop : (fieldsOf w).op = 0xF#4 := op_eq_F _ (by simp_all)
    obtain ⟨henc, hign⟩ := encode_of_dispatchF h
    exact encode_eq_mask_zero hign (henc.trans (encXKK_of_op hop))

/-- Settles O26, family by family of the dispatcher. -/
theorem encodeGivesBackTheWordButForIgnoredBits : Obligations.EncodeGivesBackTheWordButForIgnoredBits := by
  unfold Obligations.EncodeGivesBackTheWordButForIgnoredBits
  exact fun w i h => encode_of_decodeWord h

/-! ### The row of a word -/

/-- The nibble and the bytes that select a row, in a word cut by a mask. -/
theorem fieldsOf_and_op (w m : Word) : (fieldsOf (w &&& m)).op = (fieldsOf w).op &&& (fieldsOf m).op :=
  BitVec.extractLsb'_and

theorem fieldsOf_and_n (w m : Word) : (fieldsOf (w &&& m)).n = (fieldsOf w).n &&& (fieldsOf m).n :=
  BitVec.extractLsb'_and

theorem fieldsOf_and_kk (w m : Word) : (fieldsOf (w &&& m)).kk = (fieldsOf w).kk &&& (fieldsOf m).kk :=
  BitVec.extractLsb'_and

theorem op_of_selects {r : OpcodeRow} {w : Word} (h : r.selects w = true) (hm : (fieldsOf r.mask).op = 0xF) :
    (fieldsOf w).op = (fieldsOf r.value).op := by
  rw [← eq_of_beq h, fieldsOf_and_op, hm]
  exact BitVec.and_allOnes.symm

theorem n_of_selects {r : OpcodeRow} {w : Word} (h : r.selects w = true) (hm : (fieldsOf r.mask).n = 0xF) :
    (fieldsOf w).n = (fieldsOf r.value).n := by
  rw [← eq_of_beq h, fieldsOf_and_n, hm]
  exact BitVec.and_allOnes.symm

theorem kk_of_selects {r : OpcodeRow} {w : Word} (h : r.selects w = true) (hm : (fieldsOf r.mask).kk = 0xFF) :
    (fieldsOf w).kk = (fieldsOf r.value).kk := by
  rw [← eq_of_beq h, fieldsOf_and_kk, hm]
  exact BitVec.and_allOnes.symm

theorem dispatch0_row_congr {f g : Fields} (hkk : f.kk = g.kk) :
    (dispatch0 f).map rowOf = (dispatch0 g).map rowOf := by
  simp only [dispatch0, hkk]

theorem dispatch8_row_congr {f g : Fields} (hn : f.n = g.n) : (dispatch8 f).map rowOf = (dispatch8 g).map rowOf := by
  simp only [dispatch8, hn]; split <;> rfl

theorem dispatchE_row_congr {f g : Fields} (hkk : f.kk = g.kk) :
    (dispatchE f).map rowOf = (dispatchE g).map rowOf := by
  simp only [dispatchE, hkk]; split <;> rfl

theorem dispatchF_row_congr {f g : Fields} (hkk : f.kk = g.kk) :
    (dispatchF f).map rowOf = (dispatchF g).map rowOf := by
  simp only [dispatchF, hkk]; split <;> rfl

/-- The keys of R75 decide the row: the top nibble, with the low byte in families 0x0, 0xE and 0xF and the low nibble
in family 0x8. -/
theorem dispatch_row_congr {f g : Fields} (hop : f.op = g.op) (hkk : g.op ∈ [0x0, 0xE, 0xF] → f.kk = g.kk)
    (hn : g.op = 0x8 → f.n = g.n) : (dispatch f).map rowOf = (dispatch g).map rowOf := by
  unfold dispatch
  rw [hop]
  split
  case h_1 hg => exact dispatch0_row_congr (hkk (by simp [hg]))
  case h_9 hg => exact dispatch8_row_congr (hn hg)
  case h_15 hg => exact dispatchE_row_congr (hkk (by simp [hg]))
  case h_16 => exact dispatchF_row_congr (hkk (by rw [op_eq_F g.op (by simp_all)]; decide))
  all_goals rfl

/-- Every mask of the table keeps the keys of its row (R75, R76). -/
theorem opcodeTable_mask_keys : ∀ r ∈ opcodeTable, (fieldsOf r.mask).op = 0xF ∧
    ((fieldsOf r.value).op ∈ [0x0, 0xE, 0xF] → (fieldsOf r.mask).kk = 0xFF) ∧
    ((fieldsOf r.value).op = 0x8 → (fieldsOf r.mask).n = 0xF) := by decide

/-- The value of a row is a word of that row: the table against the dispatcher at its own 34 values. -/
theorem opcodeTable_value_row : ∀ r ∈ opcodeTable, (decodeWord r.value).map rowOf = some r := by decide

/-- A word that some row selects decodes to an instruction of that row: it has the keys of the row's value. -/
theorem row_of_selects {r : OpcodeRow} {w : Word} (hr : r ∈ opcodeTable) (h : r.selects w = true) :
    (decodeWord w).map rowOf = some r := by
  obtain ⟨hop, hkk, hn⟩ := opcodeTable_mask_keys r hr
  rw [← opcodeTable_value_row r hr]
  exact dispatch_row_congr (op_of_selects h hop) (fun hv => kk_of_selects h (hkk hv)) (fun hv => n_of_selects h (hn hv))

/-- No mask tests a bit that its row ignores (R76, R77). -/
theorem ignoredBits_and_mask (i : Instr) : ~~~ ignoredBits i &&& (rowOf i).mask = (rowOf i).mask := by
  cases i with
  | cls | ret => exact (by decide : ~~~ 0x0F00#16 &&& 0xF0FF#16 = 0xF0FF#16)
  | seReg | sneReg => exact (by decide : ~~~ 0x000F#16 &&& 0xF000#16 = 0xF000#16)
  | _ =>
    have hzero (m : Word) : ~~~ 0#16 &&& m = m := by rw [BitVec.not_zero]; exact BitVec.allOnes_and
    exact hzero _

/-- The architect's family `EncodesInRow` (Laws/PerInstr.lean), for every instruction. -/
theorem encodesInRow : ∀ i : Instr, Laws.EncodesInRow.Statement i
  | .cls => Laws.EncodesInRow.cls
  | .ret => Laws.EncodesInRow.ret
  | .jp _ => Laws.EncodesInRow.jp _
  | .call _ => Laws.EncodesInRow.call _
  | .seImm _ _ => Laws.EncodesInRow.seImm _ _
  | .sneImm _ _ => Laws.EncodesInRow.sneImm _ _
  | .seReg _ _ => Laws.EncodesInRow.seReg _ _
  | .ldImm _ _ => Laws.EncodesInRow.ldImm _ _
  | .addImm _ _ => Laws.EncodesInRow.addImm _ _
  | .ldReg _ _ => Laws.EncodesInRow.ldReg _ _
  | .orReg _ _ => Laws.EncodesInRow.orReg _ _
  | .andReg _ _ => Laws.EncodesInRow.andReg _ _
  | .xorReg _ _ => Laws.EncodesInRow.xorReg _ _
  | .addReg _ _ => Laws.EncodesInRow.addReg _ _
  | .sub _ _ => Laws.EncodesInRow.sub _ _
  | .shr _ _ => Laws.EncodesInRow.shr _ _
  | .subn _ _ => Laws.EncodesInRow.subn _ _
  | .shl _ _ => Laws.EncodesInRow.shl _ _
  | .sneReg _ _ => Laws.EncodesInRow.sneReg _ _
  | .ldI _ => Laws.EncodesInRow.ldI _
  | .jpV0 _ => Laws.EncodesInRow.jpV0 _
  | .rnd _ _ => Laws.EncodesInRow.rnd _ _
  | .drw _ _ _ => Laws.EncodesInRow.drw _ _ _
  | .skp _ => Laws.EncodesInRow.skp _
  | .sknp _ => Laws.EncodesInRow.sknp _
  | .ldVxDt _ => Laws.EncodesInRow.ldVxDt _
  | .ldVxK _ => Laws.EncodesInRow.ldVxK _
  | .ldDtVx _ => Laws.EncodesInRow.ldDtVx _
  | .ldStVx _ => Laws.EncodesInRow.ldStVx _
  | .addI _ => Laws.EncodesInRow.addI _
  | .ldF _ => Laws.EncodesInRow.ldF _
  | .ldB _ => Laws.EncodesInRow.ldB _
  | .ldMemVx _ => Laws.EncodesInRow.ldMemVx _
  | .ldVxMem _ => Laws.EncodesInRow.ldVxMem _

/-- A word that decodes to `i` is selected by the row of `i`: the mask drops the ignored bits, and the encoding without
them selects it. -/
theorem selects_of_decodeWord {w : Word} {i : Instr} (h : decodeWord w = some i) : (rowOf i).selects w = true := by
  obtain ⟨hsel, -⟩ := encodesInRow i
  rw [OpcodeRow.selects, encode_of_decodeWord h, BitVec.and_assoc, ignoredBits_and_mask] at hsel
  exact hsel

/-- Settles O27: a selected row is the row of what the word decodes to, and what a word decodes to has a row that
selects it. -/
theorem dispatcherAndOpcodeTableAgree : Obligations.DispatcherAndOpcodeTableAgree := by
  unfold Obligations.DispatcherAndOpcodeTableAgree
  intro w
  refine ⟨⟨fun hnone row hrow => ?_, fun hall => ?_⟩, fun i hi row hrow => ⟨fun hsel => ?_, ?_⟩⟩
  · refine Bool.eq_false_iff.mpr fun hsel => ?_
    simpa [hnone] using row_of_selects hrow hsel
  · refine Option.eq_none_iff_forall_ne_some.mpr fun i hi => ?_
    obtain ⟨-, hrow⟩ := encodesInRow i
    exact Bool.false_ne_true ((hall _ hrow).symm.trans (selects_of_decodeWord hi))
  · simpa [hi, eq_comm] using row_of_selects hrow hsel
  · rintro rfl
    exact selects_of_decodeWord hi

/-! ### The unknown words -/

theorem fieldsOf_op_toNat (w : Word) : (fieldsOf w).op.toNat = w.toNat / 4096 := by
  have := w.isLt
  simp only [fieldsOf, BitVec.extractLsb'_toNat, Nat.shiftRight_eq_div_pow]
  omega

theorem fieldsOf_kk_toNat (w : Word) : (fieldsOf w).kk.toNat = w.toNat % 256 := BitVec.extractLsb'_toNat 0 8 w

theorem fieldsOf_n_toNat (w : Word) : (fieldsOf w).n.toNat = w.toNat % 16 := BitVec.extractLsb'_toNat 0 4 w

theorem dispatch0_eq_none_iff (f : Fields) : dispatch0 f = none ↔ f.kk.toNat ∉ [0xE0, 0xEE] := by
  unfold dispatch0
  split <;> simp_all [← BitVec.toNat_inj]

theorem dispatch8_eq_none_iff (f : Fields) :
    dispatch8 f = none ↔ f.n.toNat ∈ [0x8, 0x9, 0xA, 0xB, 0xC, 0xD, 0xF] := by
  have := f.n.isLt
  unfold dispatch8
  split <;> simp_all [← BitVec.toNat_inj]
  omega

theorem dispatchE_eq_none_iff (f : Fields) : dispatchE f = none ↔ f.kk.toNat ∉ [0x9E, 0xA1] := by
  unfold dispatchE
  split <;> simp_all [← BitVec.toNat_inj]

theorem dispatchF_eq_none_iff (f : Fields) :
    dispatchF f = none ↔ f.kk.toNat ∉ [0x07, 0x0A, 0x15, 0x18, 0x1E, 0x29, 0x33, 0x55, 0x65] := by
  unfold dispatchF
  split <;> simp_all [← BitVec.toNat_inj]

/-- Settles O28: only the four families with a second-level table have unknown words, each those its table lacks. -/
theorem unknownWordsAreExactlyThese : Obligations.UnknownWordsAreExactlyThese := by
  unfold Obligations.UnknownWordsAreExactlyThese
  intro w
  rw [← fieldsOf_op_toNat, ← fieldsOf_kk_toNat, ← fieldsOf_n_toNat, ← dispatch0_eq_none_iff, ← dispatch8_eq_none_iff,
    ← dispatchE_eq_none_iff, ← dispatchF_eq_none_iff]
  unfold decodeWord dispatch
  split
  case h_1 hop | h_9 hop | h_15 hop => simp [hop]
  case h_16 =>
    have hop : (fieldsOf w).op = 0xF#4 := op_eq_F _ (by simp_all)
    simp [hop]
  all_goals simp [*]

/-- Settles O29: the ten words, evaluated. -/
theorem specDecodeVectorsDecode : Obligations.SpecDecodeVectorsDecode := by
  unfold Obligations.SpecDecodeVectorsDecode
  decide

end Sys2Proof
end

-- PROOFS of the memory's canonical form (20_memory.md): what a canonical memory reads determines it, and every step
-- keeps the form, since only two instructions write memory and both check their block first.
section
namespace Sys2Proof.Machine

/-! ### Canonical memories by what they read -/

theorem Memory.read_of_no_cell {m : Memory} {a : Nat} (font : Font) (h : ∀ c ∈ m, c.1 ≠ a) :
    m.read font a = Memory.unlisted font a := by
  induction m with
  | nil => rfl
  | cons c m ih =>
    have hc : ¬ a = c.1 := fun e => h c (by simp) e.symm
    rw [Memory.read, if_neg hc, ih fun d hd => h d (by simp [hd])]

/-- In rising order an address has one cell, which is what it reads as. -/
theorem Memory.read_of_cell {m : Memory} {c : Host.Cell} (font : Font) (hm : m.Pairwise (fun c d => c.1 < d.1))
    (hc : c ∈ m) : m.read font c.1 = c.2 := by
  induction m with
  | nil => cases hc
  | cons d m ih =>
    obtain ⟨hlt, hrest⟩ := List.pairwise_cons.mp hm
    rw [Memory.read]
    rcases List.mem_cons.mp hc with rfl | hc
    · rw [if_pos rfl]
    · rw [if_neg (Nat.ne_of_gt (hlt c hc)), ih hrest hc]

theorem Memory.nodup_of_rising {m : Memory} (h : m.Pairwise (fun c d => c.1 < d.1)) : m.Nodup :=
  h.imp fun hlt he => Nat.ne_of_lt hlt (congrArg Prod.fst he)

/-- The cells of a canonical memory are the bytes that differ from the reset contents (log entry 8). -/
theorem Memory.mem_iff_of_wf {m : Memory} {font : Font} (hm : m.wf font) (c : Host.Cell) :
    c ∈ m ↔ c.1 ≤ 0xFFF ∧ m.read font c.1 = c.2 ∧ c.2 ≠ Memory.unlisted font c.1 := by
  obtain ⟨hrising, hcells⟩ := hm
  constructor
  · intro hc
    obtain ⟨hbound, hlisted⟩ := hcells c hc
    exact ⟨hbound, Memory.read_of_cell font hrising hc, hlisted⟩
  · rintro ⟨-, hread, hlisted⟩
    by_contra hc
    have hno : ∀ d ∈ m, d.1 ≠ c.1 := fun d hd he => by
      have hd2 : d.2 = c.2 := by rw [← Memory.read_of_cell font hrising hd, he, hread]
      exact hc (Prod.ext he hd2 ▸ hd)
    exact hlisted (hread.symm.trans (Memory.read_of_no_cell font hno))

/-- Settles O30: both lists hold the cells that differ from the reset contents, in rising order. -/
theorem canonicalMemoriesThatReadAlikeAreEqual : Obligations.CanonicalMemoriesThatReadAlikeAreEqual := by
  unfold Obligations.CanonicalMemoriesThatReadAlikeAreEqual
  intro font m m' hm hm' hread
  have hmem : ∀ c : Host.Cell, c ∈ m ↔ c ∈ m' := fun c => by
    rw [Memory.mem_iff_of_wf hm, Memory.mem_iff_of_wf hm']
    exact and_congr_right fun hc => by rw [hread c.1 hc]
  obtain ⟨hrising, -⟩ := hm
  obtain ⟨hrising', -⟩ := hm'
  have hperm : m.Perm m' :=
    (List.perm_ext_iff_of_nodup (Memory.nodup_of_rising hrising) (Memory.nodup_of_rising hrising')).mpr hmem
  exact hperm.eq_of_pairwise (fun c d _ _ h h' => absurd h (Nat.lt_asymm h')) hrising hrising'

/-! ### The instructions that write memory -/

/-- Only `LD B, Vx` and `LD [I], Vx` write memory (R38). -/
theorem eq_store_of_mem_mem {i : Instr} (h : .mem ∈ writtenParts i) : ∃ x, i = .ldB x ∨ i = .ldMemVx x := by
  cases i with
  | ldB x => exact ⟨x, .inl rfl⟩
  | ldMemVx x => exact ⟨x, .inr rfl⟩
  | _ => simp [writtenParts] at h

/-- The other instructions leave the very cells of memory, not only what they read as. -/
theorem exec_mem_of_not_written {i : Instr} {s : State} (herr : handlerError i s = none)
    (hi : .mem ∉ writtenParts i) : ∃ t, exec i s = .next t ∧ t.mem = s.mem := by
  cases i with
  | cls | jp | jpV0 | ldImm | addImm | ldReg | orReg | andReg | xorReg | addReg | sub | shr | subn | shl | rnd
  | ldVxDt | ldDtVx | ldStVx | ldI | addI => exact ⟨_, rfl, rfl⟩
  | drw | ret | ldF => exact ⟨_, attempt_of_eq_none herr s _, rfl⟩
  | call => exact ⟨_, attempt_of_eq_none herr s _, s.push_mem _⟩
  | seImm | sneImm | seReg | sneReg => exact ⟨_, rfl, skipIf_mem s _⟩
  | skp | sknp => exact ⟨_, attempt_of_eq_none herr s _, skipIf_mem s _⟩
  | ldVxMem => exact ⟨_, attempt_of_eq_none herr s _, loadRegs_mem s _⟩
  | ldVxK x =>
    show ∃ t, execLdVxK x s = .next t ∧ _
    unfold execLdVxK
    cases s.lowestKey <;> exact ⟨_, rfl, rfl⟩
  | ldB | ldMemVx => simp [writtenParts] at hi

@[simp] theorem bcdDigits_length (b : Byte) : (bcdDigits b).length = 3 := rfl

/-! ### The invariant -/

theorem State.wf_of_eq {s t : State} (hs : s.wf) (hmem : t.mem = s.mem) (hfont : t.font = s.font) : t.wf := by
  unfold State.wf
  rw [hmem, hfont]
  exact hs

/-- A block that passes its bounds check is stored inside memory. -/
theorem State.store_wf_of_blockError {s : State} {bytes : List Byte} (hs : s.wf)
    (h : blockError s bytes.length = none) : (s.store (s.ea 0) bytes).wf := by
  cases bytes with
  | nil => exact hs
  | cons b bs =>
    have hfits : s.i.toNat + (b :: bs).length ≤ 0x1000 := ((blockError_eq_none s _).mp h).resolve_left (by simp)
    exact State.store_wf hs hfits

/-- An instruction that meets no error keeps the invariant. -/
theorem exec_wf {i : Instr} {s : State} (hs : s.wf) (herr : handlerError i s = none) :
    ∃ t, exec i s = .next t ∧ t.wf := by
  by_cases hi : .mem ∈ writtenParts i
  · obtain ⟨x, rfl | rfl⟩ := eq_store_of_mem_mem hi
    · exact ⟨_, attempt_of_eq_none herr s _, State.store_wf_of_blockError hs herr⟩
    · exact ⟨_, attempt_of_eq_none herr s _, State.store_wf_of_blockError hs (by rw [regBlock_length]; exact herr)⟩
  · obtain ⟨t, ht, hmem⟩ := exec_mem_of_not_written herr hi
    obtain ⟨u, hu, hframe⟩ := exec_frame herr
    obtain rfl : u = t := by simpa [hu] using ht
    exact ⟨u, hu, State.wf_of_eq hs hmem (hframe .font (by cases i <;> simp [writtenParts]))⟩

/-- A step always answers, and keeps the invariant. -/
theorem step_wf {s : State} (hs : s.wf) : ∃ t, step s = .next t ∧ t.wf := by
  obtain ⟨k, -, hstep⟩ | ⟨i, -, herr, -, hstep⟩ := step_cases s
  · exact ⟨_, hstep, hs⟩
  · obtain ⟨t, hexec, ht⟩ := exec_wf (s := s.advance) hs herr
    exact ⟨t, hstep.trans hexec, ht⟩

/-- Settles O19: only a block store writes memory, and its bounds check keeps it inside. -/
theorem stepKeepsTheInvariant : Obligations.StepKeepsTheInvariant := by
  unfold Obligations.StepKeepsTheInvariant
  intro s t hs h
  obtain ⟨u, hu, hwf⟩ := step_wf hs
  obtain rfl : u = t := by simpa [hu] using h
  exact hwf

theorem resetWith_wf (font : Font) : (State.resetWith font).wf :=
  show Memory.wf [] font from ⟨List.Pairwise.nil, by simp⟩

/-- Settles O2: no cell is listed at reset. -/
theorem resetMeetsTheInvariant : Obligations.ResetMeetsTheInvariant := by
  unfold Obligations.ResetMeetsTheInvariant
  exact ⟨resetWith_wf defaultFont, resetWith_wf⟩

end Sys2Proof.Machine
end

-- PROOFS of the host's transactions (50_host_interface.md, 60_exceptions.md): each one reports its error and changes
-- nothing else, or changes the parts that are its own; schedules follow by one induction.
section
namespace Sys2Proof.Machine

/-! ### The transactions, one by one -/

@[simp] theorem perform_reset (s : State) : perform .reset s = .next (resetTransaction s) := rfl

@[simp] theorem errOut_step (s : State) : errOut .step s = stepError s := rfl

@[simp] theorem errOut_load (bytes : List Byte) (s : State) : errOut (.load bytes) s = loadError bytes := rfl

@[simp] theorem errOut_setKey (k : Nat) (pressed : Bool) (s : State) :
    errOut (.setKey k pressed) s = hostKeyError k := rfl

@[simp] theorem errOut_isKey (k : Nat) (s : State) : errOut (.isKey k) s = hostKeyError k := rfl

theorem resetTransaction_frame (s : State) : keepsAllBut [.draws] (State.resetWith s.font) (resetTransaction s) :=
  keepsAllBut_of fun p => by cases p <;> simp [Part.same, resetTransaction, State.reg, State.byte]

@[simp] theorem resetTransaction_font (s : State) : (resetTransaction s).font = s.font := rfl

@[simp] theorem resetTransaction_draws (s : State) : (resetTransaction s).draws = s.draws := rfl

/-- `LOAD` fits exactly up to 3584 bytes (R222). -/
theorem loadError_eq_none (bytes : List Byte) : loadError bytes = none ↔ bytes.length ≤ 3584 := by
  unfold loadError; split <;> simp <;> omega

theorem loadError_eq_some (bytes : List Byte) (k : ErrorKind) :
    loadError bytes = some k ↔ k = .outOfBounds ∧ bytes.length > 3584 := by
  unfold loadError; split <;> simp [eq_comm] <;> omega

theorem hostKeyError_eq_none (k : Nat) : hostKeyError k = none ↔ k ≤ 15 := by
  unfold hostKeyError; split <;> simp <;> omega

theorem hostKeyError_eq_some (k : Nat) (e : ErrorKind) :
    hostKeyError k = some e ↔ e = .invalidRegisterIndex ∧ k > 15 := by
  unfold hostKeyError; split <;> simp [eq_comm] <;> omega

/-- A load that fits is one store (R222). -/
theorem perform_load {bytes : List Byte} (h : bytes.length ≤ 3584) (s : State) :
    perform (.load bytes) s = .next (s.store 0x200 bytes) :=
  attempt_of_eq_none ((loadError_eq_none bytes).mpr h) s _

/-- `SETKEY` of a key that exists is one write of the latch (R225). -/
theorem perform_setKey (k : Fin 16) (pressed : Bool) (s : State) :
    perform (.setKey k.val pressed) s = .next (s.setKey k pressed) := by
  have herr : hostKeyError k.val = none := (hostKeyError_eq_none _).mpr (by omega)
  show attempt _ s _ = _
  rw [attempt_of_eq_none herr, dif_pos k.isLt]

/-- `ISKEY` of a key that exists changes nothing (R226). -/
theorem perform_isKey {k : Nat} (h : k ≤ 15) (s : State) : perform (.isKey k) s = .next s :=
  attempt_of_eq_none ((hostKeyError_eq_none k).mpr h) s s

/-! ### Reports (R244) -/

theorem attempt_of_eq_some {err : Option ErrorKind} {k : ErrorKind} (h : err = some k) (s e : State) :
    attempt err s e = .next (s.report k) := by
  rw [h, attempt_some]

/-- A transaction of the host whose `ERR_OUT` is an error is that report and nothing more. -/
theorem perform_of_errOut {tr : Transaction} {s : State} {k : ErrorKind} (htr : tr ≠ .step)
    (h : errOut tr s = some k) : perform tr s = .next (s.report k) := by
  cases tr with
  | reset | tick => cases h
  | step => exact absurd rfl htr
  | load | setKey | isKey => exact attempt_of_eq_some h s _

/-- In a step the report comes after the fetch's advance. -/
theorem advance_report_reports (s : State) (k : ErrorKind) : reports k [.pc] s (s.advance.report k) := by
  obtain ⟨hflags, hframe⟩ := report_reports s.advance k
  exact ⟨hflags, keepsAllBut_mono (keepsAllBut_trans (advance_frame s) hframe) (by simp)⟩

/-! ### What a transaction may change -/

/-- The parts a transaction may write when it reports no error (R221 to R226, R38). -/
def Transaction.ports : Transaction → List Part
  | .reset => [.v, .pc, .i, .sp, .stack, .dt, .st, .key, .fb, .mem, .errflags]
  | .load _ => [.mem]
  | .step => [.v, .pc, .i, .sp, .stack, .dt, .st, .fb, .mem, .draws]
  | .tick => [.dt, .st]
  | .setKey _ _ => [.key]
  | .isKey _ => []

/-- No instruction writes the keys, the error flags or FONT (R29, R33). -/
theorem writtenParts_subset_ports (i : Instr) : ∀ p ∈ writtenParts i, p ∈ Transaction.step.ports := by
  cases i <;> simp [writtenParts, Transaction.ports]

/-- RESET gives every part a fixed value but FONT and the count of draws. -/
theorem resetTransaction_ports (s : State) : keepsAllBut Transaction.reset.ports s (resetTransaction s) :=
  keepsAllBut_of fun p => by cases p <;> simp [Transaction.ports, Part.same]

/-- A transaction that reports no error answers a next state, which differs in its own ports only. -/
theorem perform_frame {tr : Transaction} {s : State} (herr : errOut tr s = none) :
    ∃ t, perform tr s = .next t ∧ keepsAllBut tr.ports s t := by
  cases tr with
  | reset => exact ⟨_, rfl, resetTransaction_ports s⟩
  | load bytes => exact ⟨_, perform_load ((loadError_eq_none bytes).mp herr) s, store_frame s _ _⟩
  | step =>
    obtain ⟨k, hk, -⟩ | ⟨i, -, hi, -, hstep⟩ := step_cases s
    · rw [errOut_step, hk] at herr; cases herr
    · obtain ⟨t, hexec, hframe⟩ := exec_frame hi
      refine ⟨t, hstep.trans hexec, keepsAllBut_mono (keepsAllBut_trans (advance_frame s) hframe) fun p hp => ?_⟩
      rcases List.mem_append.mp hp with hpc | hi
      · simp_all [Transaction.ports]
      · exact writtenParts_subset_ports i p hi
  | tick => exact ⟨_, rfl, tick_frame s⟩
  | setKey k pressed =>
    have hk := (hostKeyError_eq_none k).mp herr
    exact ⟨_, perform_setKey ⟨k, by omega⟩ pressed s, setKey_frame s _ _⟩
  | isKey k => exact ⟨s, perform_isKey ((hostKeyError_eq_none k).mp herr) s, keepsAllBut_refl _ s⟩

/-- All a transaction can do: report its error, or change its own ports. -/
theorem perform_cases (tr : Transaction) (s : State) :
    (∃ k, errOut tr s = some k ∧ ∃ t, perform tr s = .next t ∧ t.errflags = s.errflags ||| k.flagBit ∧
      keepsAllBut (.errflags :: if tr = .step then [.pc] else []) s t) ∨
    (errOut tr s = none ∧ ∃ t, perform tr s = .next t ∧ keepsAllBut tr.ports s t) := by
  cases herr : errOut tr s with
  | none => exact .inr ⟨rfl, perform_frame herr⟩
  | some k =>
    refine .inl ⟨k, rfl, ?_⟩
    by_cases htr : tr = .step
    · subst htr
      obtain ⟨-, hframe⟩ := advance_report_reports s k
      exact ⟨_, step_of_stepError herr, rfl, hframe⟩
    · obtain ⟨-, hframe⟩ := report_reports s k
      exact ⟨_, perform_of_errOut htr herr, rfl, by rwa [if_neg htr]⟩

theorem perform_answers (tr : Transaction) (s : State) : ∃ t, perform tr s = .next t := by
  obtain ⟨k, -, t, ht, -⟩ | ⟨-, t, ht, -⟩ := perform_cases tr s <;> exact ⟨t, ht⟩

/-- Beside the error flags, a transaction changes its own ports only. -/
theorem perform_changes_only_ports {tr : Transaction} {s t : State} (h : perform tr s = .next t) :
    keepsAllBut (.errflags :: tr.ports) s t := by
  obtain ⟨k, -, u, hu, -, hframe⟩ | ⟨-, u, hu, hframe⟩ := perform_cases tr s
  · obtain rfl : u = t := by simpa [hu] using h
    exact keepsAllBut_mono hframe (by cases tr <;> simp [Transaction.ports])
  · obtain rfl : u = t := by simpa [hu] using h
    exact keepsAllBut_mono hframe (by simp +contextual)

/-! ### The statements about one transaction -/

/-- Settles O12: whether it reports an error or not, a transaction has a next state. -/
theorem everyTransactionAnswersNext : Obligations.EveryTransactionAnswersNext := by
  unfold Obligations.EveryTransactionAnswersNext
  exact perform_answers

/-- Settles O13: an error is evaluated before any write, so its report is all that happens after the fetch. -/
theorem reportedErrorChangesOnlyPcAndErrflags : Obligations.ReportedErrorChangesOnlyPcAndErrflags := by
  unfold Obligations.ReportedErrorChangesOnlyPcAndErrflags
  refine ⟨fun s k h => ?inStep, fun tr s k htr h => ?byHost, fun s => perform_answers .step s⟩
  case inStep => exact ⟨_, step_of_stepError h, rfl, advance_report_reports s k⟩
  case byHost => exact ⟨_, perform_of_errOut htr h, report_reports s k⟩

theorem flagBit_getLsbD_bit (k j : ErrorKind) : k.flagBit.getLsbD j.bit = decide (k = j) := by
  cases k <;> cases j <;> decide

/-- Settles O14: the flags change by the reported error's own bit only. -/
theorem errflagsAccumulateTheReports : Obligations.ErrflagsAccumulateTheReports := by
  unfold Obligations.ErrflagsAccumulateTheReports
  intro tr s t htr h j
  obtain ⟨k, herr, u, hu, hflags, -⟩ | ⟨herr, u, hu, hframe⟩ := perform_cases tr s
  · obtain rfl : u = t := by simpa [hu] using h
    rw [hflags, BitVec.getLsbD_or, flagBit_getLsbD_bit, herr]
    simp only [Option.some.injEq]
  · obtain rfl : u = t := by simpa [hu] using h
    have hflags : u.errflags = s.errflags := hframe .errflags (by cases tr <;> simp_all [Transaction.ports])
    simp [hflags, herr]

/-- Settles O21: a part that changed is a port of the transaction, and each port belongs to few of them. -/
theorem hostReachesOnlyItsOwnPorts : Obligations.HostReachesOnlyItsOwnPorts := by
  unfold Obligations.HostReachesOnlyItsOwnPorts
  intro tr s t h
  have hframe := perform_changes_only_ports h
  refine ⟨?keys, ?frame, ?memory, ?timers⟩
  case keys =>
    rintro ⟨k, hk⟩
    have hport := mem_of_not_same (p := .key) hframe fun hsame => hk (hsame k)
    cases tr <;> simp_all [Transaction.ports]
  case frame =>
    intro hreset hstep
    refine keepsAllBut_mono hframe ?_
    cases tr <;> simp_all [Transaction.ports]
  case memory =>
    rintro ⟨a, ha⟩
    have hport := mem_of_not_same (p := .mem) hframe fun hsame => ha (hsame a)
    cases tr <;> simp_all [Transaction.ports]
  case timers =>
    rintro (hdt | hst)
    · have hport := mem_of_not_same (p := .dt) hframe hdt
      cases tr <;> simp_all [Transaction.ports]
    · have hport := mem_of_not_same (p := .st) hframe hst
      cases tr <;> simp_all [Transaction.ports]

/-- Settles O1: the fields of the reset state, and memory without a listed cell. -/
theorem resetGivesTheStatedValues : Obligations.ResetGivesTheStatedValues := by
  unfold Obligations.ResetGivesTheStatedValues
  refine ⟨rfl, fun font => ⟨fun r => ?_, rfl, rfl, rfl, fun k => ?_, rfl, rfl, fun k => ?_, fun y x _ _ => ?_,
    Memory.unlisted_font font, fun a _ => Memory.unlisted_outside font a, rfl⟩⟩
  · simp [State.resetWith, State.reg]
  · simp [State.resetWith]
  · simp [State.resetWith]
  · exact Framebuffer.pixel_clear y x

/-- Settles O3: RESET is the reset state of the machine's FONT, with the model's count of draws going on. -/
theorem resetTransactionGivesTheResetState : Obligations.ResetTransactionGivesTheResetState := by
  unfold Obligations.ResetTransactionGivesTheResetState
  exact fun s => ⟨_, perform_reset s, resetTransaction_frame s, rfl⟩

/-- Settles O4: a load that fits is one store at 0x200, a longer one is a report. -/
theorem loadWritesTheProgramOrNothing : Obligations.LoadWritesTheProgramOrNothing := by
  unfold Obligations.LoadWritesTheProgramOrNothing
  refine fun bytes s => ⟨fun hfits => ?fits, fun hlong => ?long⟩
  case fits =>
    refine ⟨_, perform_load hfits s, fun k hk => ?_, fun a ha => ?_, store_frame s _ _,
      (loadError_eq_none bytes).mpr hfits⟩
    · rw [State.store_byte, dif_pos (by omega)]
      simp
    · rw [State.store_byte, dif_neg (by omega)]
  case long =>
    have herr : errOut (.load bytes) s = some .outOfBounds := (loadError_eq_some bytes _).mpr ⟨rfl, hlong⟩
    exact ⟨_, perform_of_errOut (by simp) herr, report_reports s _, herr⟩

/-- Settles O7: a key index below 16 is one write of the latch, a greater one a report. -/
theorem setKeySetsOneSlot : Obligations.SetKeySetsOneSlot := by
  unfold Obligations.SetKeySetsOneSlot
  refine fun pressed s => ⟨fun k => ?inRange, fun k hk => ?above⟩
  case inRange =>
    refine ⟨_, perform_setKey k pressed s, fun j => ?_, setKey_frame s k _, (hostKeyError_eq_none _).mpr (by omega)⟩
    simp [Vector.getElem_set, Fin.val_inj, eq_comm]
  case above =>
    have herr : errOut (.setKey k pressed) s = some .invalidRegisterIndex := (hostKeyError_eq_some k _).mpr ⟨rfl, hk⟩
    exact ⟨_, perform_of_errOut (by simp) herr, report_reports s _, herr⟩

/-- Settles O8: the reads answer the latch and the pixel, and only an `ISKEY` above 15 leaves a trace. -/
theorem hostReadsAnswerFromTheState : Obligations.HostReadsAnswerFromTheState := by
  unfold Obligations.HostReadsAnswerFromTheState
  refine fun s => ⟨fun k => ?inRange, fun k hk => ?above, fun x y => ?pixel⟩
  case inRange =>
    exact ⟨dif_pos k.isLt, s, perform_isKey (by omega) s, keepsAllBut_refl _ s, (hostKeyError_eq_none _).mpr (by omega)⟩
  case above =>
    have herr : errOut (.isKey k) s = some .invalidRegisterIndex := (hostKeyError_eq_some k _).mpr ⟨rfl, hk⟩
    exact ⟨dif_neg (by omega), _, perform_of_errOut (by simp) herr, report_reports s _, herr⟩
  case pixel => exact dif_pos ⟨y.isLt, x.isLt⟩

/-! ### Schedules -/

theorem runSchedule_cons {tr : Transaction} {ts : List Transaction} {s t : State} (h : perform tr s = .next t) :
    runSchedule (tr :: ts) s = runSchedule ts t := by
  rw [runSchedule, h]

theorem runSchedule_append {ts us : List Transaction} {s t : State} (h : runSchedule ts s = .next t) :
    runSchedule (ts ++ us) s = runSchedule us t := by
  induction ts generalizing s with
  | nil => cases h; rfl
  | cons tr ts ih =>
    obtain ⟨u, hu⟩ := perform_answers tr s
    rw [runSchedule_cons hu] at h
    rw [List.cons_append, runSchedule_cons hu, ih h]

/-- The one induction over schedules: what every transaction keeps holds at the end of each. -/
theorem runSchedule_invariant {P : State → Prop}
    (hP : ∀ tr s, P s → ∃ t, perform tr s = .next t ∧ P t) (ts : List Transaction) (s : State) (hs : P s) :
    ∃ t, runSchedule ts s = .next t ∧ P t := by
  induction ts generalizing s with
  | nil => exact ⟨s, rfl, hs⟩
  | cons tr ts ih =>
    obtain ⟨t, ht, hPt⟩ := hP tr s hs
    rw [runSchedule_cons ht]
    exact ih t hPt

/-- Every transaction keeps the memory canonical: RESET empties it, LOAD and STEP store inside it, the others do not
write it. -/
theorem perform_wf (tr : Transaction) (s : State) (hs : s.wf) : ∃ t, perform tr s = .next t ∧ t.wf := by
  cases herr : errOut tr s with
  | some k =>
    by_cases htr : tr = .step
    · subst htr; exact step_wf hs
    · exact ⟨_, perform_of_errOut htr herr, hs⟩
  | none =>
    cases tr with
    | reset => exact ⟨_, rfl, resetWith_wf s.font⟩
    | load bytes =>
      have hfits := (loadError_eq_none bytes).mp herr
      exact ⟨_, perform_load hfits s, State.store_wf hs (by omega)⟩
    | step => exact step_wf hs
    | tick => exact ⟨_, rfl, hs⟩
    | setKey k pressed =>
      have hk := (hostKeyError_eq_none k).mp herr
      exact ⟨_, perform_setKey ⟨k, by omega⟩ pressed s, hs⟩
    | isKey k => exact ⟨s, perform_isKey ((hostKeyError_eq_none k).mp herr) s, hs⟩

/-- Settles O20: every transaction answers and keeps the invariant. -/
theorem everyScheduleRunsAndKeepsTheInvariant : Obligations.EveryScheduleRunsAndKeepsTheInvariant := by
  unfold Obligations.EveryScheduleRunsAndKeepsTheInvariant
  exact runSchedule_invariant perform_wf

theorem perform_font (tr : Transaction) (s : State) : ∃ t, perform tr s = .next t ∧ t.font = s.font := by
  obtain ⟨t, ht⟩ := perform_answers tr s
  exact ⟨t, ht, perform_changes_only_ports ht .font (by cases tr <;> simp [Transaction.ports])⟩

/-- Settles O59: no transaction writes FONT, and RESET empties the memory's list of cells. -/
theorem resetRestoresTheSameFontAfterEverySchedule : Obligations.ResetRestoresTheSameFontAfterEverySchedule := by
  unfold Obligations.ResetRestoresTheSameFontAfterEverySchedule
  intro ts s
  obtain ⟨t, ht, hfont⟩ := runSchedule_invariant (P := fun u => u.font = s.font)
    (fun tr u hu => (perform_font tr u).imp fun _ h => ⟨h.1, h.2.trans hu⟩) ts s rfl
  refine ⟨t, resetTransaction t, ht, hfont, ?_, hfont, fun k => ?_⟩
  · rw [runSchedule_append ht]; rfl
  · rw [← hfont]; exact Memory.unlisted_font t.font k

/-- Settles O6: each tick takes one more from both timers, and truncated subtractions add up. -/
theorem timerAfterManyTicks : Obligations.TimerAfterManyTicks := by
  unfold Obligations.TimerAfterManyTicks
  intro k
  induction k with
  | zero => exact fun s => ⟨s, rfl, rfl, rfl, keepsAllBut_refl _ s⟩
  | succ k ih =>
    intro s
    obtain ⟨t, ht, hdt, hst, hframe⟩ := ih (tick s)
    refine ⟨t, ?run, ?delay, ?sound, keepsAllBut_mono (keepsAllBut_trans (tick_frame s) hframe) (by simp)⟩
    case run => rw [List.replicate_succ, runSchedule_cons (perform_tick s), ht]
    case delay => rw [hdt, tick_dt, countDown_toNat, Nat.sub_sub, Nat.add_comm]
    case sound => rw [hst, tick_st, countDown_toNat, Nat.sub_sub, Nat.add_comm]

end Sys2Proof.Machine
end

-- PROOFS about the step and its errors (40_fetch_dispatch.md, 60_exceptions.md): a fetch fails in two ways and a
-- handler in its own, so each error kind has the causes the spec lists and no other.
section
namespace Sys2Proof.Machine

/-! ### The fetch -/

theorem step_of_fetches {s : State} {i : Instr} (h : s.fetches i) : step s = exec i s.advance :=
  step_of_fetch ((fetches_iff s i).mp h)

/-- The two ways a fetch fails, bounds first (R91, R96). -/
theorem fetch_eq_error_iff (s : State) (k : ErrorKind) : fetch s = .error k ↔
    (k = .outOfBounds ∧ s.pc.toNat > 0xFFE) ∨
    (k = .unknownOpcode ∧ s.pc.toNat ≤ 0xFFE ∧
      decodeWord (wordOf (s.byte s.pc.toNat) (s.byte (s.pc.toNat + 1))) = none) := by
  by_cases hpc : s.pc.toNat ≤ 0xFFE
  · rw [fetch_inside s hpc]
    cases decodeWord (wordOf (s.byte s.pc.toNat) (s.byte (s.pc.toNat + 1))) <;> simp [hpc, eq_comm]
  · rw [fetch_outside s (by omega)]
    simp [hpc, eq_comm]; omega

/-- No error condition reads `PC`, so it may be tested on the state before the fetch. -/
@[simp] theorem handlerError_advance (i : Instr) (s : State) : handlerError i s.advance = handlerError i s := by
  cases i <;> rfl

/-- The error of a step is its fetch's or its handler's (R248). -/
theorem stepError_eq_some_iff (s : State) (k : ErrorKind) :
    stepError s = some k ↔ fetch s = .error k ∨ ∃ i, s.fetches i ∧ handlerError i s = some k := by
  simp only [fetches_iff, stepError, handlerError_advance]
  cases fetch s <;> simp

/-- Settles O9: the fetch advances `PC` and hands the instruction to its handler. -/
theorem stepRunsTheDecodedInstruction : Obligations.StepRunsTheDecodedInstruction := by
  unfold Obligations.StepRunsTheDecodedInstruction
  exact fun s i h => step_of_fetches h

theorem decodeBytes_eq_unknown_iff (hi lo : Byte) :
    decodeBytes [hi, lo] = .error .unknownWord ↔ decodeWord (wordOf hi lo) = none := by
  rw [decodeBytes_pair]
  cases decodeWord (wordOf hi lo) <;> simp

/-- Settles O10: the report of the fetch is all that such a step does. -/
theorem unknownWordIsReportedAndPassed : Obligations.UnknownWordIsReportedAndPassed := by
  unfold Obligations.UnknownWordIsReportedAndPassed
  intro s hpc hword
  have hfetch : fetch s = .error .unknownOpcode :=
    (fetch_eq_error_iff s _).mpr (.inr ⟨rfl, hpc, (decodeBytes_eq_unknown_iff _ _).mp hword⟩)
  have herr : errOut .step s = some .unknownOpcode := (stepError_eq_some_iff s _).mpr (.inl hfetch)
  exact ⟨_, step_of_stepError herr, rfl, advance_report_reports s _, herr, by rw [herr]; rfl⟩

/-- Settles O11: the same for a fetch outside memory; the 16 bits of `PC` wrap. -/
theorem fetchOutsideMemoryIsReported : Obligations.FetchOutsideMemoryIsReported := by
  unfold Obligations.FetchOutsideMemoryIsReported
  intro s hpc
  have herr := errOut_step_outside hpc
  exact ⟨_, step_of_stepError herr, BitVec.toNat_add s.pc 2, advance_report_reports s _, herr, by rw [herr]; rfl⟩

/-! ### The causes of each error -/

theorem blockError_succ_eq_some (s : State) (n : Nat) (k : ErrorKind) :
    blockError s (n + 1) = some k ↔ k = .outOfBounds ∧ s.i.toNat + n > 0xFFF := by
  rw [blockError_eq_some]
  exact and_congr_right fun _ => by omega

/-- Every error a handler can meet (R241 (b) to (e), R242, R246): a block at `I` that leaves memory, a register whose
whole value is no index, a full or an empty stack. None of them is an unknown opcode: the dispatcher comes before. -/
theorem handlerError_eq_some_iff (i : Instr) (s : State) (k : ErrorKind) : handlerError i s = some k ↔
    (k = .outOfBounds ∧
      ((∃ x y n, i = .drw x y n ∧ n.toNat > 0 ∧ s.i.toNat + n.toNat - 1 > 0xFFF) ∨
       (∃ x, i = .ldB x ∧ s.i.toNat + 2 > 0xFFF) ∨
       (∃ x : RegIdx, i = .ldMemVx x ∧ s.i.toNat + x.val > 0xFFF) ∨
       (∃ x : RegIdx, i = .ldVxMem x ∧ s.i.toNat + x.val > 0xFFF))) ∨
    (k = .invalidRegisterIndex ∧ ∃ x, (i = .skp x ∨ i = .sknp x ∨ i = .ldF x) ∧ (s.reg x).toNat > 15) ∨
    (k = .callStack ∧ ((∃ nnn, i = .call nnn ∧ s.sp.val = 16) ∨ (i = .ret ∧ s.sp.val = 0))) := by
  cases i with
  | drw x y n =>
    have hbound : 0x1000 < s.i.toNat + n.toNat ↔ 0xFFF < s.i.toNat + n.toNat - 1 := by omega
    simp [handlerError, blockError_eq_some, hbound]
  | ldB => simp [handlerError, blockError_succ_eq_some s 2]
  | ldMemVx | ldVxMem => simp [handlerError, blockError_succ_eq_some]
  | skp | sknp | ldF => simp [handlerError, indexError_eq_some]
  | ret => simp [handlerError, returnError_eq_some]
  | call => simp [handlerError, callError_eq_some]
  | _ => simp only [handlerError, reduceCtorEq, false_and, exists_false, or_self, and_false]

/-- Settles O15: the fetch, the four block instructions and `LOAD` check bounds, nothing else does. -/
theorem outOfBoundsHasExactlyTheseCauses : Obligations.OutOfBoundsHasExactlyTheseCauses := by
  unfold Obligations.OutOfBoundsHasExactlyTheseCauses
  refine ⟨fun s => ?step, fun bytes s => ?load, fun tr s h => ?others⟩
  case step =>
    simp only [errOut_step, stepError_eq_some_iff, fetch_eq_error_iff, handlerError_eq_some_iff]
    -- the causes agree; `aesop` moves `fetches` under their existentials
    aesop
  case load => simpa using loadError_eq_some bytes .outOfBounds
  case others =>
    cases tr with
    | step => exact .inl rfl
    | load bytes => exact .inr ⟨bytes, rfl⟩
    | reset | tick => cases h
    | setKey k | isKey k => simp [hostKeyError_eq_some] at h

/-- Settles O16: the three instructions that take an index from a register, and the two transactions that take one
from the host. -/
theorem invalidRegisterIndexHasExactlyTheseCauses : Obligations.InvalidRegisterIndexHasExactlyTheseCauses := by
  unfold Obligations.InvalidRegisterIndexHasExactlyTheseCauses
  refine ⟨fun s => ?step, fun tr s htr => ?others⟩
  case step =>
    simp only [errOut_step, stepError_eq_some_iff, fetch_eq_error_iff, handlerError_eq_some_iff]
    -- the causes agree; `aesop` moves `fetches` under their existentials
    aesop
  case others =>
    cases tr with
    | step => exact absurd rfl htr
    | reset | tick => simp [errOut]
    | load bytes => simp [loadError_eq_some]
    | setKey k | isKey k => simp [hostKeyError_eq_some]

/-- Settles O18: only `CALL` and `RET` test the stack, and no transaction of the host does. -/
theorem callStackHasExactlyTheseCauses : Obligations.CallStackHasExactlyTheseCauses := by
  unfold Obligations.CallStackHasExactlyTheseCauses
  refine ⟨fun s => ?step, fun tr s h => ?others⟩
  case step =>
    simp only [errOut_step, stepError_eq_some_iff, fetch_eq_error_iff, handlerError_eq_some_iff]
    -- the causes agree; `aesop` moves `fetches` under their existentials
    aesop
  case others =>
    cases tr with
    | step => rfl
    | reset | tick => cases h
    | load bytes => simp [loadError_eq_some] at h
    | setKey k | isKey k => simp [hostKeyError_eq_some] at h

/-- The word of a fetch as a number, high byte first (R51). -/
theorem wordOf_eq_ofNat (hi lo : Byte) : wordOf hi lo = BitVec.ofNat 16 (256 * hi.toNat + lo.toNat) := by
  apply BitVec.eq_of_toNat_eq
  have := hi.isLt
  have := lo.isLt
  rw [wordOf, BitVec.toNat_append, BitVec.toNat_ofNat, ← Nat.shiftLeft_add_eq_or_of_lt lo.isLt]
  omega

/-- Settles O17: the dispatcher misses exactly the words that no row of the table selects. -/
theorem unknownOpcodeHasExactlyThisCause : Obligations.UnknownOpcodeHasExactlyThisCause := by
  unfold Obligations.UnknownOpcodeHasExactlyThisCause
  refine ⟨fun s => ?step, fun tr s h => ?others⟩
  case step =>
    obtain ⟨htable, -⟩ := dispatcherAndOpcodeTableAgree (wordOf (s.byte s.pc.toNat) (s.byte (s.pc.toNat + 1)))
    rw [← wordOf_eq_ofNat, ← htable]
    simp [stepError_eq_some_iff, fetch_eq_error_iff, handlerError_eq_some_iff]
  case others =>
    cases tr with
    | step => rfl
    | reset | tick => cases h
    | load bytes => simp [loadError_eq_some] at h
    | setKey k | isKey k => simp [hostKeyError_eq_some] at h

end Sys2Proof.Machine
end

-- PROOFS about who writes what (10_state.md section 8) and about steps that leave the state as it was: the writers of
-- each part, of each register, the waiting machine, and the sound timer that nothing reads.
section
namespace Sys2Proof.Machine

/-! ### The writers of each part (R38) -/

theorem eq_writer_of_i_mem {i : Instr} (h : .i ∈ writtenParts i) :
    (∃ nnn, i = .ldI nnn) ∨ (∃ x, i = .addI x) ∨ ∃ x, i = .ldF x := by
  cases i with
  | ldI | addI | ldF => simp
  | _ => simp [writtenParts] at h

theorem eq_writer_of_sp_mem {i : Instr} (h : .sp ∈ writtenParts i) : i = .ret ∨ ∃ nnn, i = .call nnn := by
  cases i with
  | ret | call => simp
  | _ => simp [writtenParts] at h

theorem eq_call_of_stack_mem {i : Instr} (h : .stack ∈ writtenParts i) : ∃ nnn, i = .call nnn := by
  cases i with
  | call nnn => exact ⟨nnn, rfl⟩
  | _ => simp [writtenParts] at h

theorem eq_writer_of_fb_mem {i : Instr} (h : .fb ∈ writtenParts i) : i = .cls ∨ ∃ x y n, i = .drw x y n := by
  cases i with
  | cls | drw => simp
  | _ => simp [writtenParts] at h

theorem eq_rnd_of_draws_mem {i : Instr} (h : .draws ∈ writtenParts i) : ∃ x kk, i = .rnd x kk := by
  cases i with
  | rnd x kk => exact ⟨x, kk, rfl⟩
  | _ => simp [writtenParts] at h

/-- Stacks with the same entries are the same data. -/
theorem stack_eq_of_same {s t : State} (h : Part.stack.same s t) : t.stack = s.stack :=
  Vector.ext fun k hk => h ⟨k, hk⟩

/-- Framebuffers with the same pixels are the same data. -/
theorem fb_eq_of_same {s t : State} (h : Part.fb.same s t) : t.fb = s.fb := by
  refine Vector.ext fun y hy => Vector.ext fun x hx => ?_
  have hpixel : t.fb.pixel y x = s.fb.pixel y x := h y x
  simpa [Framebuffer.pixel, hy, hx] using hpixel

/-- A step changes the cells of memory only by an instruction that stores. -/
theorem step_changes_mem {s t : State} (h : step s = .next t) (hmem : t.mem ≠ s.mem) :
    ∃ x, s.fetches (.ldB x) ∨ s.fetches (.ldMemVx x) := by
  obtain ⟨k, -, hstep⟩ | ⟨i, hfetch, herr, -, hstep⟩ := step_cases s
  · obtain rfl : s.advance.report k = t := by simpa [hstep] using h
    exact absurd rfl hmem
  · by_cases hi : .mem ∈ writtenParts i
    · obtain ⟨x, rfl | rfl⟩ := eq_store_of_mem_mem hi
      · exact ⟨x, .inl ((fetches_iff s _).mpr hfetch)⟩
      · exact ⟨x, .inr ((fetches_iff s _).mpr hfetch)⟩
    · obtain ⟨u, hexec, hsame⟩ := exec_mem_of_not_written herr hi
      obtain rfl : u = t := by simpa [hstep, hexec] using h
      exact absurd hsame hmem

/-- Settles O22: beside `PC` and `ERRFLAGS` a step changes what its instruction writes, and each part has the writers
listed. -/
theorem onlyTheListedInstructionsWriteEachPart : Obligations.OnlyTheListedInstructionsWriteEachPart := by
  unfold Obligations.OnlyTheListedInstructionsWriteEachPart
  intro s t h
  have hwriter (p : Part) (hp : ¬ p.same s t) (hpc : p ≠ .pc) (hflags : p ≠ .errflags) :=
    step_changes_only_written h hp hpc hflags
  refine ⟨fun hi => ?index, fun hsp => ?depth, fun hstack => ?entries, fun hfb => ?pixels, step_changes_mem h,
    fun hdraws => ?draw⟩
  case index =>
    obtain ⟨i, hfetch, hmem⟩ := hwriter .i hi (by decide) (by decide)
    exact ⟨i, hfetch, eq_writer_of_i_mem hmem⟩
  case depth =>
    obtain ⟨i, hfetch, hmem⟩ := hwriter .sp hsp (by decide) (by decide)
    obtain rfl | ⟨nnn, rfl⟩ := eq_writer_of_sp_mem hmem
    · exact .inl hfetch
    · exact .inr ⟨nnn, hfetch⟩
  case entries =>
    obtain ⟨i, hfetch, hmem⟩ := hwriter .stack (mt stack_eq_of_same hstack) (by decide) (by decide)
    obtain ⟨nnn, rfl⟩ := eq_call_of_stack_mem hmem
    exact ⟨nnn, hfetch⟩
  case pixels =>
    obtain ⟨i, hfetch, hmem⟩ := hwriter .fb (mt fb_eq_of_same hfb) (by decide) (by decide)
    obtain rfl | ⟨x, y, n, rfl⟩ := eq_writer_of_fb_mem hmem
    · exact .inl hfetch
    · exact .inr ⟨x, y, n, hfetch⟩
  case draw =>
    obtain ⟨i, hfetch, hmem⟩ := hwriter .draws hdraws (by decide) (by decide)
    obtain ⟨x, kk, rfl⟩ := eq_rnd_of_draws_mem hmem
    exact ⟨x, kk, hfetch⟩

/-! ### The writers of a register (R22) -/

/-- A register that is neither a destination nor the flag keeps its value. -/
theorem exec_reg_of_not_named {i : Instr} {s : State} {r : RegIdx} (herr : handlerError i s = none)
    (hdest : namesDestination i r = false) (hflag : r = 15 → definesFlag i = false) :
    ∃ t, exec i s = .next t ∧ t.reg r = s.reg r := by
  by_cases hv : .v ∈ writtenParts i
  · cases i with
    | ldImm | addImm | ldReg | orReg | andReg | xorReg | ldVxDt =>
      exact ⟨_, rfl, s.setReg_reg_of_ne _ (by simpa [namesDestination] using hdest)⟩
    | rnd => exact ⟨_, rfl, s.setReg_reg_of_ne _ (by simpa [namesDestination] using hdest)⟩
    | addReg | sub | shr | subn | shl =>
      exact ⟨_, rfl, s.setFlagThenReg_reg_other _ _ (by simpa [namesDestination] using hdest)
        fun h15 => by simp [definesFlag] at hflag; exact hflag h15⟩
    | drw =>
      refine ⟨_, attempt_of_eq_none herr s _, State.setReg_reg_of_ne _ _ fun h15 => ?_⟩
      simp [definesFlag] at hflag; exact hflag h15
    | ldVxK x =>
      show ∃ t, execLdVxK x s = .next t ∧ _
      unfold execLdVxK
      cases s.lowestKey with
      | some k => exact ⟨_, rfl, s.setReg_reg_of_ne _ (by simpa [namesDestination] using hdest)⟩
      | none => exact ⟨_, rfl, rfl⟩
    | ldVxMem x =>
      refine ⟨_, attempt_of_eq_none herr s _, ?_⟩
      have hr : ¬ r.val < x.val + 1 := by simp [namesDestination] at hdest; omega
      rw [loadRegs_reg, if_neg hr]
    | _ => simp [writtenParts] at hv
  · obtain ⟨t, ht, hframe⟩ := exec_frame herr
    exact ⟨t, ht, hframe .v hv r⟩

/-- Settles O23: the report of an error writes no register, an instruction only those it names and the flag. -/
theorem registersChangeOnlyAsDestinationOrFlag : Obligations.RegistersChangeOnlyAsDestinationOrFlag := by
  unfold Obligations.RegistersChangeOnlyAsDestinationOrFlag
  intro s t r h hr
  obtain ⟨k, -, hstep⟩ | ⟨i, hfetch, herr, -, hstep⟩ := step_cases s
  · obtain rfl : s.advance.report k = t := by simpa [hstep] using h
    exact absurd rfl hr
  · refine ⟨i, (fetches_iff s i).mpr hfetch, ?_⟩
    by_contra hnot
    simp only [not_or, not_and, Bool.not_eq_true] at hnot
    obtain ⟨hdest, hflag⟩ := hnot
    obtain ⟨u, hexec, hsame⟩ := exec_reg_of_not_named herr hdest hflag
    obtain rfl : u = t := by simpa [hstep, hexec] using h
    exact hr hsame

/-! ### Waiting (R203, R277) -/

theorem exec_ldVxK_of_pressed {s : State} {k : Fin 16} (x : RegIdx) (h : s.lowestKey = some k) :
    exec (.ldVxK x) s = .next (s.setReg x (BitVec.ofNat 8 k.val)) := by
  show execLdVxK x s = _
  rw [execLdVxK, h]

theorem exec_ldVxK_of_released {s : State} (x : RegIdx) (h : ∀ k : Fin 16, s.key[k] = false) :
    exec (.ldVxK x) s = .next s.rewind := by
  show execLdVxK x s = _
  rw [execLdVxK, (lowestKey_eq_none s).mpr h]

/-- The key wait's step back undoes the fetch's advance. -/
@[simp] theorem State.advance_rewind (s : State) : s.advance.rewind = s := by
  have hpc : s.pc + 2 - 2 = s.pc := by bv_omega
  show s.jumpTo (s.pc + 2 - 2) = s
  rw [hpc, State.jumpTo_pc_self]

/-- Settles O57: the scan finds the lowest pressed key, or none. -/
theorem keyWaitTakesTheLowestKeyOrStays : Obligations.KeyWaitTakesTheLowestKeyOrStays := by
  unfold Obligations.KeyWaitTakesTheLowestKeyOrStays
  refine fun x s => ⟨fun k hk hlow => ?pressed, fun hnone => ?waiting⟩
  case pressed =>
    refine ⟨_, exec_ldVxK_of_pressed x (lowestKey_eq_some s k hk hlow), ?_, fun r hr => s.setReg_reg_of_ne _ hr,
      setReg_frame s x _⟩
    rw [State.setReg_reg_same, BitVec.toNat_ofNat]
    omega
  case waiting =>
    refine ⟨_, exec_ldVxK_of_released x hnone, ?_, rewind_frame s⟩
    have := s.pc.isLt
    rw [State.rewind_pc, BitVec.toNat_sub]
    simp; omega

/-- Settles O58: the key wait goes back to its own address, a self-jump to its own. -/
theorem waitingAndEndedMachinesAreUnchangedByAStep : Obligations.WaitingAndEndedMachinesAreUnchangedByAStep := by
  unfold Obligations.WaitingAndEndedMachinesAreUnchangedByAStep
  constructor
  · rintro s ⟨⟨x, hfetch⟩, hkeys⟩
    rw [step_of_fetch hfetch, exec_ldVxK_of_released (s := s.advance) x hkeys, State.advance_rewind]
  · rintro s ⟨-, nnn, hfetch, hself⟩
    exact step_of_fetch_selfJump hfetch hself

/-! ### The sound timer is not read (R205) -/

@[simp] theorem fetch_setSt (s : State) (b : Byte) : fetch (s.setSt b) = fetch s := rfl

@[simp] theorem handlerError_setSt (i : Instr) (s : State) (b : Byte) :
    handlerError i (s.setSt b) = handlerError i s := by
  cases i <;> rfl

@[simp] theorem stepError_setSt (s : State) (b : Byte) : stepError (s.setSt b) = stepError s := by
  simp only [stepError, fetch_setSt]
  cases fetch s with
  | error k => rfl
  | ok i => exact handlerError_setSt i s.advance b

theorem skipIf_setSt (c : Bool) (s : State) (b : Byte) : skipIf c (s.setSt b) = (skipIf c s).setSt b := by
  cases c <;> rfl

theorem push_setSt (s : State) (b : Byte) (a : Word) : (s.setSt b).push a = (s.push a).setSt b := by
  unfold State.push
  by_cases h : s.sp.val < 16
  · rw [dif_pos h, dif_pos (show (s.setSt b).sp.val < 16 from h)]; rfl
  · rw [dif_neg h, dif_neg (show ¬ (s.setSt b).sp.val < 16 from h)]

theorem loadRegs_setSt (s : State) (b : Byte) (n : Nat) : loadRegs (s.setSt b) n = (loadRegs s n).setSt b := by
  induction n with
  | zero => rfl
  | succ n ih =>
    unfold loadRegs
    by_cases h : n < 16
    · rw [dif_pos h, dif_pos h, ih]; rfl
    · rw [dif_neg h, dif_neg h, ih]

theorem drawSprite_setSt (s : State) (b : Byte) (x y : RegIdx) (n : Nat) :
    drawSprite (s.setSt b) x y n = drawSprite s x y n := by
  simp only [drawSprite, spriteBytes_eq]
  rfl

/-- An instruction that meets no error does the same with any sound timer. -/
theorem exec_setSt {i : Instr} {s : State} (b : Byte) (herr : handlerError i s = none) :
    ∃ t u, exec i s = .next t ∧ exec i (s.setSt b) = .next u ∧ keepsAllBut [.st] t u := by
  have herr' : handlerError i (s.setSt b) = none := by rw [handlerError_setSt, herr]
  cases i with
  | ldStVx x => exact ⟨_, _, rfl, rfl, keepsAllBut_refl _ _⟩
  | cls | jp | jpV0 | ldImm | addImm | ldReg | orReg | andReg | xorReg | addReg | sub | shr | subn | shl | rnd
  | ldVxDt | ldDtVx | ldI | addI => exact ⟨_, _, rfl, rfl, setSt_frame _ b⟩
  | seImm | sneImm | seReg | sneReg =>
    refine ⟨_, _, rfl, rfl, ?_⟩
    rw [skipIf_setSt]; exact setSt_frame _ b
  | skp | sknp =>
    refine ⟨_, _, attempt_of_eq_none herr s _, attempt_of_eq_none herr' _ _, ?_⟩
    rw [skipIf_setSt]; exact setSt_frame _ b
  | ret | ldF | ldB | ldMemVx =>
    exact ⟨_, _, attempt_of_eq_none herr s _, attempt_of_eq_none herr' _ _, setSt_frame _ b⟩
  | call =>
    refine ⟨_, _, attempt_of_eq_none herr s _, attempt_of_eq_none herr' _ _, ?_⟩
    rw [push_setSt]; exact setSt_frame _ b
  | drw =>
    refine ⟨_, _, attempt_of_eq_none herr s _, attempt_of_eq_none herr' _ _, ?_⟩
    rw [drawSprite_setSt]; exact setSt_frame _ b
  | ldVxMem =>
    refine ⟨_, _, attempt_of_eq_none herr s _, attempt_of_eq_none herr' _ _, ?_⟩
    rw [loadRegs_setSt]; exact setSt_frame _ b
  | ldVxK x =>
    show ∃ t u, execLdVxK x s = .next t ∧ execLdVxK x (s.setSt b) = .next u ∧ _
    unfold execLdVxK
    rw [show (s.setSt b).lowestKey = s.lowestKey from rfl]
    cases s.lowestKey <;> exact ⟨_, _, rfl, rfl, setSt_frame _ b⟩

/-- Settles O60: no error condition and no instruction reads `ST`. -/
theorem noInstructionReadsTheSoundTimer : Obligations.NoInstructionReadsTheSoundTimer := by
  unfold Obligations.NoInstructionReadsTheSoundTimer
  intro s b
  refine ⟨stepError_setSt s b, ?_⟩
  obtain ⟨k, hk, hstep⟩ | ⟨i, hfetch, herr, -, hstep⟩ := step_cases s
  · exact ⟨_, _, hstep, step_of_stepError ((stepError_setSt s b).trans hk), setSt_frame _ b⟩
  · obtain ⟨t, u, ht, hu, hframe⟩ := exec_setSt b herr
    exact ⟨t, u, hstep.trans ht, (step_of_fetch ((fetch_setSt s b).trans hfetch)).trans hu, hframe⟩

end Sys2Proof.Machine
end

-- PROOFS about the call stack, the register jumps and the skips (41_control_flow.md, 45_keypad_timers.md): what each
-- instruction does when it meets no error, and its report when it does.
section
namespace Sys2Proof.Machine

/-- A handler's error is its report and nothing more (R244, R245). -/
theorem exec_reports {i : Instr} {s : State} {k : ErrorKind} (h : handlerError i s = some k) :
    ∃ t, exec i s = .next t ∧ reports k [] s t :=
  ⟨_, exec_of_handlerError h, report_reports s k⟩

/-! ### The call stack -/

/-- Below 16 entries `CALL` is a push and a jump (R112). -/
theorem exec_call_of_room {s : State} (nnn : Addr) (h : s.sp.val < 16) :
    exec (.call nnn) s = .next ((s.push s.pc).jumpTo (target nnn)) :=
  attempt_of_eq_none ((callError_eq_none s).mpr h) s _

/-- Above 0 entries `RET` is a pop and a jump to what was on top (R110). -/
theorem exec_ret_of_entry {s : State} (h : 0 < s.sp.val) : exec .ret s = .next (s.pop.jumpTo s.top) :=
  attempt_of_eq_none ((returnError_eq_none s).mpr h) s _

theorem State.top_eq {s : State} {k : Fin 16} (h : s.sp.val = k.val + 1) : s.top = s.stack[k] := by
  simp [State.top, h]

/-- Settles O33: below 16 entries a push and a jump, at 16 the report alone. -/
theorem callPushesReturnAddressAndJumps : Obligations.CallPushesReturnAddressAndJumps := by
  unfold Obligations.CallPushesReturnAddressAndJumps
  refine fun nnn s => ⟨fun hroom => ?room, fun hfull => exec_reports ((callError_eq_some s _).mpr ⟨rfl, hfull⟩)⟩
  case room =>
    exact ⟨_, exec_call_of_room nnn hroom, target_toNat nnn, s.push_sp _ hroom, s.push_stack _ hroom,
      keepsAllBut_mono (keepsAllBut_trans (push_frame s _) (jumpTo_frame _ _)) (by simp)⟩

/-- Settles O34: above 0 entries a pop and a jump, at 0 the report alone. -/
theorem returnPopsTheMostRecentEntry : Obligations.ReturnPopsTheMostRecentEntry := by
  unfold Obligations.ReturnPopsTheMostRecentEntry
  refine fun s => ⟨fun k hk => ?entry, fun hempty => exec_reports ((returnError_eq_some s _).mpr ⟨rfl, hempty⟩)⟩
  case entry =>
    refine ⟨_, exec_ret_of_entry (by omega), State.top_eq hk, ?_,
      keepsAllBut_mono (keepsAllBut_trans (pop_frame s) (jumpTo_frame _ _)) (by simp)⟩
    show s.sp.val - 1 = k.val
    omega

/-- Settles O35: the entry on top is the one the call pushed. -/
theorem returnUndoesCall : Obligations.ReturnUndoesCall := by
  unfold Obligations.ReturnUndoesCall
  intro nnn s t u hroom hcall hsp hstack
  obtain rfl : (s.push s.pc).jumpTo (target nnn) = t := by simpa [exec_call_of_room nnn hroom] using hcall
  have hdepth : u.sp.val = s.sp.val + 1 := (congrArg Fin.val hsp).trans (s.push_sp _ hroom)
  refine ⟨_, exec_ret_of_entry (by omega), ?pc, Fin.ext ?sp⟩
  case pc =>
    have hpushed := s.push_stack s.pc hroom ⟨s.sp.val, hroom⟩
    rw [if_pos rfl] at hpushed
    rw [State.jumpTo_pc, State.top_eq (k := ⟨s.sp.val, hroom⟩) hdepth, hstack, State.jumpTo_stack, hpushed]
  case sp =>
    show u.sp.val - 1 = s.sp.val
    omega

/-! ### Jumps and skips -/

@[simp] theorem exec_jpV0 (nnn : Addr) (s : State) : exec (.jpV0 nnn) s = .next (s.jumpTo (offsetTarget s nnn)) := rfl

@[simp] theorem exec_seReg (x y : RegIdx) (s : State) :
    exec (.seReg x y) s = .next (skipIf (s.reg x == s.reg y) s) := rfl

@[simp] theorem exec_sneReg (x y : RegIdx) (s : State) :
    exec (.sneReg x y) s = .next (skipIf (s.reg x != s.reg y) s) := rfl

/-- Settles O32: the sum has its 13 bits, and above 0xFFE nothing can be fetched. -/
theorem jumpWithOffsetAddsRegisterZero : Obligations.JumpWithOffsetAddsRegisterZero := by
  unfold Obligations.JumpWithOffsetAddsRegisterZero
  refine fun nnn s => ⟨_, exec_jpV0 nnn s, offsetTarget_toNat s nnn, jumpTo_frame s _, fun hsum => ?_⟩
  exact errOut_step_outside (by rw [State.jumpTo_pc, offsetTarget_toNat]; exact hsum)

/-- Settles O37: a skip on the comparison and one on its negation; their families have no second key. -/
theorem skipsOnRegisterComparison : Obligations.SkipsOnRegisterComparison := by
  unfold Obligations.SkipsOnRegisterComparison
  refine fun x y s => ⟨⟨_, exec_seReg x y s, ?_, skipIf_frame s _⟩, ⟨_, exec_sneReg x y s, ?_, skipIf_frame s _⟩,
    fun n => ⟨?_, ?_⟩⟩
  · simp only [skipIf_pc_toNat, beq_iff_eq]
  · simp only [skipIf_pc_toNat, bne_iff_ne, ne_eq, ite_not]
  · simp [decodeWord, dispatch]
  · simp [decodeWord, dispatch]

theorem exec_skp_of_key {s : State} {x : RegIdx} {k : Fin 16} (h : (s.reg x).toNat = k.val) :
    exec (.skp x) s = .next (skipIf s.key[k] s) := by
  rw [← keyAt_eq s _ k h]
  exact attempt_of_eq_none ((indexError_eq_none _).mpr (by omega)) s _

theorem exec_sknp_of_key {s : State} {x : RegIdx} {k : Fin 16} (h : (s.reg x).toNat = k.val) :
    exec (.sknp x) s = .next (skipIf (!s.key[k]) s) := by
  rw [← keyAt_eq s _ k h]
  exact attempt_of_eq_none ((indexError_eq_none _).mpr (by omega)) s _

/-- Settles O55: a skip on the key's state and one on its negation; above 15 there is no key. -/
theorem keySkipsFollowTheKeyState : Obligations.KeySkipsFollowTheKeyState := by
  unfold Obligations.KeySkipsFollowTheKeyState
  refine fun x s => ⟨fun k hk => ⟨⟨_, exec_skp_of_key hk, skipIf_pc_toNat _ s, skipIf_frame s _⟩,
    ⟨_, exec_sknp_of_key hk, ?_, skipIf_frame s _⟩⟩, fun habove => ?_⟩
  · simp only [skipIf_pc_toNat, Bool.not_eq_true', ← Bool.not_eq_true, ite_not]
  · have herr : indexError (s.reg x) = some .invalidRegisterIndex := (indexError_eq_some _ _).mpr ⟨rfl, habove⟩
    exact ⟨exec_reports herr, exec_reports herr⟩

end Sys2Proof.Machine
end

-- PROOFS about the other ALU instructions (42_alu.md): one register written, or the flag and then the result.
section
namespace Sys2Proof.Machine

/-! ### The ALU, one equation for each instruction -/

@[simp] theorem exec_ldReg (x y : RegIdx) (s : State) : exec (.ldReg x y) s = .next (s.setReg x (s.reg y)) := rfl

@[simp] theorem exec_orReg (x y : RegIdx) (s : State) :
    exec (.orReg x y) s = .next (s.setReg x (s.reg x ||| s.reg y)) := rfl

@[simp] theorem exec_andReg (x y : RegIdx) (s : State) :
    exec (.andReg x y) s = .next (s.setReg x (s.reg x &&& s.reg y)) := rfl

@[simp] theorem exec_xorReg (x y : RegIdx) (s : State) :
    exec (.xorReg x y) s = .next (s.setReg x (s.reg x ^^^ s.reg y)) := rfl

@[simp] theorem exec_sub (x y : RegIdx) (s : State) : exec (.sub x y) s =
    .next (s.setFlagThenReg x (notBorrow (s.reg x) (s.reg y)) (s.reg x - s.reg y)) := rfl

@[simp] theorem exec_subn (x y : RegIdx) (s : State) : exec (.subn x y) s =
    .next (s.setFlagThenReg x (notBorrow (s.reg y) (s.reg x)) (s.reg y - s.reg x)) := rfl

@[simp] theorem exec_shr (x y : RegIdx) (s : State) : exec (.shr x y) s =
    .next (s.setFlagThenReg x (lowBit (s.reg y)) (s.reg y >>> 1)) := rfl

@[simp] theorem exec_shl (x y : RegIdx) (s : State) : exec (.shl x y) s =
    .next (s.setFlagThenReg x (highBit (s.reg y)) (s.reg y <<< 1)) := rfl

@[simp] theorem exec_rnd (x : RegIdx) (kk : Byte) (s : State) : exec (.rnd x kk) s =
    .next ((s.setReg x (Config.randomByte s.draws &&& kk)).countDraw) := rfl

/-- Settles O39: each is one write of `V[x]`, and the operations of bit vectors are bit by bit. -/
theorem moveAndBitwiseOperations : Obligations.MoveAndBitwiseOperations := by
  unfold Obligations.MoveAndBitwiseOperations
  intro x y s
  have hothers (b : Byte) (r : RegIdx) (hr : r ≠ x) : (s.setReg x b).reg r = s.reg r := s.setReg_reg_of_ne b hr
  refine ⟨⟨_, exec_ldReg x y s, s.setReg_reg_same x _, hothers _, setReg_frame s x _⟩,
    ⟨_, exec_orReg x y s, fun j => ?_, hothers _, setReg_frame s x _⟩,
    ⟨_, exec_andReg x y s, fun j => ?_, hothers _, setReg_frame s x _⟩,
    ⟨_, exec_xorReg x y s, fun j => ?_, hothers _, setReg_frame s x _⟩⟩
  · rw [State.setReg_reg_same, BitVec.getLsbD_or]
  · rw [State.setReg_reg_same, BitVec.getLsbD_and]
  · rw [State.setReg_reg_same, BitVec.getLsbD_xor]

/-- What every flag-defining instruction leaves in the registers: its result in `V[x]`, its flag in `V[15]` unless that
is `V[x]`, and the others as they were (R130 (d), D14). -/
theorem setFlagThenReg_spec (s : State) (x : RegIdx) (flag : Bool) (b : Byte) :
    (s.setFlagThenReg x flag b).reg x = b ∧
    (x ≠ 15 → (s.setFlagThenReg x flag b).reg 15 = flagByte flag) ∧
    (∀ r, r ≠ x → r ≠ 15 → (s.setFlagThenReg x flag b).reg r = s.reg r) ∧
    keepsAllBut [.v] s (s.setFlagThenReg x flag b) :=
  ⟨s.setFlagThenReg_reg_dest x flag b, s.setFlagThenReg_reg_flag flag b,
    fun _ hx h15 => s.setFlagThenReg_reg_other flag b hx h15, setFlagThenReg_frame s x flag b⟩

/-- A difference of bytes is taken modulo 256 (R130 (a)). -/
theorem byte_sub_toNat (a b : Byte) : (a - b).toNat = (a.toNat + 256 - b.toNat) % 256 := by
  have := b.isLt
  rw [BitVec.toNat_sub]
  omega

/-- The strict comparison as a flag (R138, R140). -/
theorem flagByte_notBorrow_toNat (a b : Byte) :
    (flagByte (notBorrow a b)).toNat = if a.toNat > b.toNat then 1 else 0 := by
  simp only [flagByte_toNat, notBorrow, decide_eq_true_eq]

/-- The bit that leaves at the right (R139). -/
theorem flagByte_lowBit_toNat (b : Byte) : (flagByte (lowBit b)).toNat = b.toNat % 2 := by
  rw [flagByte_toNat, lowBit, BitVec.getLsbD, Nat.testBit_zero]
  simp only [decide_eq_true_eq]
  split <;> omega

/-- The bit that leaves at the left (R141). -/
theorem flagByte_highBit_toNat (b : Byte) : (flagByte (highBit b)).toNat = b.toNat / 128 := by
  have := b.isLt
  rw [flagByte_toNat, highBit, BitVec.getLsbD, Nat.testBit_eq_decide_div_mod_eq]
  simp only [decide_eq_true_eq]
  split <;> omega

/-- Settles O41: both operands are read before the flag and then the difference are written. -/
theorem subSetsDifferenceAndFlag : Obligations.SubSetsDifferenceAndFlag := by
  unfold Obligations.SubSetsDifferenceAndFlag
  intro x y s
  obtain ⟨hres, hflag, hothers, hframe⟩ :=
    setFlagThenReg_spec s x (notBorrow (s.reg x) (s.reg y)) (s.reg x - s.reg y)
  refine ⟨_, exec_sub x y s, ?_, fun hx => ?_, hothers, hframe⟩
  · rw [hres, byte_sub_toNat]
  · rw [hflag hx, flagByte_notBorrow_toNat]

/-- Settles O42: SUB with its operands exchanged. -/
theorem subnSetsReverseDifferenceAndFlag : Obligations.SubnSetsReverseDifferenceAndFlag := by
  unfold Obligations.SubnSetsReverseDifferenceAndFlag
  intro x y s
  obtain ⟨hres, hflag, hothers, hframe⟩ :=
    setFlagThenReg_spec s x (notBorrow (s.reg y) (s.reg x)) (s.reg y - s.reg x)
  refine ⟨_, exec_subn x y s, ?_, fun hx => ?_, hothers, hframe⟩
  · rw [hres, byte_sub_toNat]
  · rw [hflag hx, flagByte_notBorrow_toNat]

/-- Settles O43: the bit shifted out is the remainder, or the quotient by 128, of the old `Vy`. -/
theorem shiftsTakeVyAndSetTheBitShiftedOut : Obligations.ShiftsTakeVyAndSetTheBitShiftedOut := by
  unfold Obligations.ShiftsTakeVyAndSetTheBitShiftedOut
  intro x y s
  constructor
  · obtain ⟨hres, hflag, hothers, hframe⟩ := setFlagThenReg_spec s x (lowBit (s.reg y)) (s.reg y >>> 1)
    refine ⟨_, exec_shr x y s, ?_, fun hx => ?_, hothers, hframe⟩
    · rw [hres, BitVec.toNat_ushiftRight, Nat.shiftRight_one]
    · rw [hflag hx, flagByte_lowBit_toNat]
  · obtain ⟨hres, hflag, hothers, hframe⟩ := setFlagThenReg_spec s x (highBit (s.reg y)) (s.reg y <<< 1)
    refine ⟨_, exec_shl x y s, ?_, fun hx => ?_, hothers, hframe⟩
    · rw [hres, BitVec.toNat_shiftLeft, Nat.shiftLeft_eq, pow_one, Nat.mul_comm]
    · rw [hflag hx, flagByte_highBit_toNat]

/-- Settles O44: nothing is used of the drawn byte. -/
theorem randomMasksOneFreeByte : Obligations.RandomMasksOneFreeByte := by
  unfold Obligations.RandomMasksOneFreeByte
  intro x kk s
  refine ⟨_, exec_rnd x kk s, fun j => ?bits, ?masked, rfl, fun r hr => s.setReg_reg_of_ne _ hr,
    keepsAllBut_trans (setReg_frame s x _) (countDraw_frame _)⟩
  case bits => rw [State.countDraw_reg, State.setReg_reg_same, BitVec.getLsbD_and]
  case masked =>
    rw [State.countDraw_reg, State.setReg_reg_same, BitVec.and_assoc, BitVec.and_not_self]
    exact BitVec.and_zero

end Sys2Proof.Machine
end

-- PROOFS about the index register and the blocks at it (43_index_memory.md, 20_memory.md section 6).
section
namespace Sys2Proof.Machine

/-! ### The index register -/

@[simp] theorem exec_addI (x : RegIdx) (s : State) : exec (.addI x) s = .next (s.setI (indexPlus s (s.reg x))) := rfl

/-- Settles O46: 16-bit addition of the zero-extended byte. -/
theorem addToIndexKeepsSixteenBits : Obligations.AddToIndexKeepsSixteenBits := by
  unfold Obligations.AddToIndexKeepsSixteenBits
  intro x s
  have := (s.reg x).isLt
  refine ⟨_, exec_addI x s, ?_, setI_frame s _⟩
  rw [State.setI_i, indexPlus, BitVec.toNat_add, BitVec.toNat_setWidth]
  omega

/-- The glyph of a digit lies inside the font block (R162). -/
theorem glyphAddress_toNat {d : Byte} (h : d.toNat ≤ 15) : (glyphAddress d).toNat = 0x050 + 5 * d.toNat := by
  rw [glyphAddress, BitVec.toNat_ofNat]
  omega

/-- Settles O47: a digit sets `I`, any other value is the report alone. -/
theorem fontAddressOfADigit : Obligations.FontAddressOfADigit := by
  unfold Obligations.FontAddressOfADigit
  refine fun x s => ⟨fun hdigit => ?digit, fun habove => exec_reports ((indexError_eq_some _ _).mpr ⟨rfl, habove⟩)⟩
  case digit =>
    exact ⟨_, attempt_of_eq_none ((indexError_eq_none _).mpr hdigit) s _, glyphAddress_toNat hdigit, setI_frame s _⟩

/-! ### Blocks at `I` -/

/-- A block of `n + 1` bytes at `I` passes its check exactly when its last address is inside memory (R54). -/
theorem blockError_succ_eq_none (s : State) (n : Nat) : blockError s (n + 1) = none ↔ s.ea n ≤ 0xFFF := by
  rw [blockError_eq_none, State.ea]; omega

theorem exec_ldB_of_inside {s : State} (x : RegIdx) (h : s.ea 2 ≤ 0xFFF) :
    exec (.ldB x) s = .next (s.store (s.ea 0) (bcdDigits (s.reg x))) :=
  attempt_of_eq_none ((blockError_succ_eq_none s 2).mpr h) s _

theorem exec_ldMemVx_of_inside {s : State} {x : RegIdx} (h : s.ea x.val ≤ 0xFFF) :
    exec (.ldMemVx x) s = .next (s.store (s.ea 0) (regBlock s x)) :=
  attempt_of_eq_none ((blockError_succ_eq_none s x.val).mpr h) s _

theorem exec_ldVxMem_of_inside {s : State} {x : RegIdx} (h : s.ea x.val ≤ 0xFFF) :
    exec (.ldVxMem x) s = .next (loadRegs s (x.val + 1)) :=
  attempt_of_eq_none ((blockError_succ_eq_none s x.val).mpr h) s _

/-- Byte `k` of a block stored at `I` is at `I + k` (R52). -/
theorem State.store_byte_ea (s : State) (bs : List Byte) (k : Nat) (hk : k < bs.length) :
    (s.store (s.ea 0) bs).byte (s.ea k) = bs[k] := by
  have hin : s.ea 0 ≤ s.ea k ∧ s.ea k < s.ea 0 + bs.length := by unfold State.ea; omega
  have hk' : s.ea k - s.ea 0 = k := by unfold State.ea; omega
  rw [State.store_byte, dif_pos hin]
  simp only [hk']

/-- A block stored at `I` with last byte at `I + n` leaves every other byte (R56). -/
theorem State.store_byte_outside (s : State) {bs : List Byte} {n a : Nat} (hn : bs.length = n + 1)
    (ha : a < s.ea 0 ∨ s.ea n < a) : (s.store (s.ea 0) bs).byte a = s.byte a := by
  rw [State.store_byte, dif_neg]
  unfold State.ea at *
  omega

/-- After a block store `V[k]` is in memory at `I + k` (R164). -/
theorem regBlock_stored (s : State) {x k : RegIdx} (h : k.val ≤ x.val) :
    (s.store (s.ea 0) (regBlock s x)).byte (s.ea k.val) = s.reg k := by
  rw [State.store_byte_ea s _ k.val (by rw [regBlock_length]; omega), regBlock_getElem]

/-- Settles O48: the block is the three digits, stored after the check of its last address. -/
theorem bcdStoresThreeDigits : Obligations.BcdStoresThreeDigits := by
  unfold Obligations.BcdStoresThreeDigits
  refine fun x s => ⟨fun hin => ?inside, fun hout => exec_reports ((blockError_succ_eq_some s 2 _).mpr ⟨rfl, hout⟩)⟩
  case inside =>
    have := (s.reg x).isLt
    refine ⟨_, exec_ldB_of_inside x hin, ?hundreds, ?tens, ?ones, fun a => s.store_byte_outside rfl, store_frame s _ _⟩
    case hundreds => rw [State.store_byte_ea s _ 0 (by simp)]; simp [bcdDigits]; omega
    case tens => rw [State.store_byte_ea s _ 1 (by simp)]; simp [bcdDigits]; omega
    case ones => rw [State.store_byte_ea s _ 2 (by simp)]; simp [bcdDigits]; omega

/-- Settles O49: the block is `V[0]`..`V[x]`, stored after the check of its last address. -/
theorem blockStoreWritesRegistersZeroToX : Obligations.BlockStoreWritesRegistersZeroToX := by
  unfold Obligations.BlockStoreWritesRegistersZeroToX
  refine fun x s => ⟨fun hin => ?inside, fun hout =>
    exec_reports ((blockError_succ_eq_some s x.val _).mpr ⟨rfl, hout⟩)⟩
  case inside =>
    exact ⟨_, exec_ldMemVx_of_inside hin, fun k hk => regBlock_stored s hk,
      fun a => s.store_byte_outside (regBlock_length s x), store_frame s _ _⟩

/-- Settles O50: the registers up to `x` take the bytes at their own offsets from `I`. -/
theorem blockLoadReadsRegistersZeroToX : Obligations.BlockLoadReadsRegistersZeroToX := by
  unfold Obligations.BlockLoadReadsRegistersZeroToX
  refine fun x s => ⟨fun hin => ?inside, fun hout =>
    exec_reports ((blockError_succ_eq_some s x.val _).mpr ⟨rfl, hout⟩)⟩
  case inside =>
    refine ⟨_, exec_ldVxMem_of_inside hin, fun k hk => ?_, fun k hk => ?_, loadRegs_frame s _⟩
    · rw [loadRegs_reg, if_pos (by omega)]
    · rw [loadRegs_reg, if_neg (by omega)]

/-- Settles O51: the load reads each register's byte where the store put it. -/
theorem blockLoadUndoesBlockStore : Obligations.BlockLoadUndoesBlockStore := by
  unfold Obligations.BlockLoadUndoesBlockStore
  intro x s t u hin hstore hi hbytes
  obtain rfl : s.store (s.ea 0) (regBlock s x) = t := by simpa [exec_ldMemVx_of_inside hin] using hstore
  have hea (k : Nat) : u.ea k = s.ea k := by rw [State.ea, hi]; rfl
  refine ⟨_, exec_ldVxMem_of_inside (by rw [hea]; exact hin), fun k hk => ?_⟩
  rw [loadRegs_reg, if_pos (by omega), hea, hbytes, regBlock_stored s hk]

/-- Settles O24: the two bytes at `PC` are registers just stored, and the fetch reads memory as it now is. -/
theorem nextFetchSeesTheStoredBytes : Obligations.NextFetchSeesTheStoredBytes := by
  unfold Obligations.NextFetchSeesTheStoredBytes
  intro s x k k' i hin hk' hkx hpc hdecode
  have hlo : s.pc.toNat = s.ea k.val := hpc
  have hhi : s.pc.toNat + 1 = s.ea k'.val := by unfold State.ea; omega
  refine ⟨_, exec_ldMemVx_of_inside hin, step_of_fetches ⟨?_, ?_⟩⟩
  · rw [State.store_pc]; omega
  · rw [State.store_pc, hhi, hlo, regBlock_stored s (by omega), regBlock_stored s hkx, hdecode]

end Sys2Proof.Machine
end

-- PROOFS about the display (44_display.md): a draw is the XOR of one window, so a second one undoes it.
section
namespace Sys2Proof.Machine

@[simp] theorem exec_cls (s : State) : exec .cls s = .next (s.setFb Framebuffer.clear) := rfl

/-- Settles O52: one write of the framebuffer; family 0x0 tests the low byte only. -/
theorem clearScreenUnlightsEveryPixel : Obligations.ClearScreenUnlightsEveryPixel := by
  unfold Obligations.ClearScreenUnlightsEveryPixel
  refine ⟨fun s => ⟨_, exec_cls s, Framebuffer.pixel_clear, setFb_frame s _⟩, fun h => ?_⟩
  simp [decodeWord, dispatch, dispatch0]

/-- The sprite's bit for a pixel when `DRW Vx, Vy, n` draws (R182): the window of its bytes, at its coordinates. -/
def spriteBit (s : State) (x y : RegIdx) (n : Nat) : Nat → Nat → Bool :=
  windowBit ((s.reg y).toNat % 32) ((s.reg x).toNat % 64) ((List.range n).map fun k => s.byte (s.i.toNat + k))

theorem drawSprite_pixel (s : State) (x y : RegIdx) (n row col : Nat) :
    (drawSprite s x y n).fb.pixel row col = (s.fb.pixel row col ^^ spriteBit s x y n row col) := by
  obtain ⟨hpixel, -⟩ := Canvas.drawRows_spec (spriteBytes s n) ⟨s.fb, false⟩ (spriteRow s y) (spriteColumn s x)
  rw [spriteBit, ← spriteBytes_eq]
  exact hpixel row col

theorem drawSprite_hit (s : State) (x y : RegIdx) (n : Nat) : (drawSprite s x y n).hit = true ↔
    ∃ row col, s.fb.pixel row col = true ∧ spriteBit s x y n row col = true := by
  obtain ⟨-, hhit⟩ := Canvas.drawRows_spec (spriteBytes s n) ⟨s.fb, false⟩ (spriteRow s y) (spriteColumn s x)
  rw [spriteBit, ← spriteBytes_eq]
  exact hhit.trans (or_iff_right Bool.false_ne_true)

/-- The state after a draw whose sprite is inside memory. -/
def drawn (s : State) (x y : RegIdx) (n : Nat) : State :=
  (s.setFb (drawSprite s x y n).fb).setFlag (drawSprite s x y n).hit

theorem drawBounds_iff (s : State) (n : BitVec 4) :
    blockError s n.toNat = none ↔ n.toNat = 0 ∨ s.i.toNat + n.toNat - 1 ≤ 0xFFF := by
  rw [blockError_eq_none]; omega

theorem exec_drw_of_inside {s : State} (x y : RegIdx) {n : BitVec 4}
    (h : n.toNat = 0 ∨ s.i.toNat + n.toNat - 1 ≤ 0xFFF) : exec (.drw x y n) s = .next (drawn s x y n.toNat) :=
  attempt_of_eq_none ((drawBounds_iff s n).mpr h) s _

theorem drawn_pixel (s : State) (x y : RegIdx) (n row col : Nat) :
    (drawn s x y n).fb.pixel row col = (s.fb.pixel row col ^^ spriteBit s x y n row col) :=
  drawSprite_pixel s x y n row col

theorem drawn_flag (s : State) (x y : RegIdx) (n : Nat) :
    (drawn s x y n).reg 15 = flagByte (drawSprite s x y n).hit := State.setReg_reg_same _ 15 _

/-- Settles O53: the drawn canvas is the old one XOR the window, and its hit is the flag. -/
theorem drawXorsTheWindowAndSetsCollision : Obligations.DrawXorsTheWindowAndSetsCollision := by
  unfold Obligations.DrawXorsTheWindowAndSetsCollision
  refine fun x y n s => ⟨fun hin => ?inside, fun hout => ?outside⟩
  case inside =>
    refine ⟨_, exec_drw_of_inside x y hin, drawn_pixel s x y n.toNat, fun hhit => ?_, fun hmiss => ?_,
      fun r hr => State.setReg_reg_of_ne _ _ hr,
      keepsAllBut_mono (keepsAllBut_trans (setFb_frame s _) (setReg_frame _ 15 _)) (by simp)⟩
    · rw [drawn_flag, (drawSprite_hit s x y n.toNat).mpr hhit]; rfl
    · have hnone : (drawSprite s x y n.toNat).hit = false := by
        refine Bool.eq_false_iff.mpr fun hhit => ?_
        obtain ⟨row, col, hlit, hbit⟩ := (drawSprite_hit s x y n.toNat).mp hhit
        exact Bool.false_ne_true ((hmiss row col hlit).symm.trans hbit)
      rw [drawn_flag, hnone]; rfl
  case outside => exact exec_reports ((blockError_eq_some s _ _).mpr ⟨rfl, by omega⟩)

/-- A draw that leaves its own coordinates draws the same window again: it changes neither `I` nor memory. -/
theorem spriteBit_drawn {s : State} {x y : RegIdx} {n : Nat}
    (hx : ((drawn s x y n).reg x).toNat % 64 = (s.reg x).toNat % 64)
    (hy : ((drawn s x y n).reg y).toNat % 32 = (s.reg y).toNat % 32) :
    spriteBit (drawn s x y n) x y n = spriteBit s x y n := by
  rw [spriteBit, hx, hy]; rfl

/-- Settles O54: the second XOR undoes the first; its hits are the pixels that the first draw lit. -/
theorem drawingTwiceRestoresTheFramebuffer : Obligations.DrawingTwiceRestoresTheFramebuffer := by
  unfold Obligations.DrawingTwiceRestoresTheFramebuffer
  intro x y n s t hin hdraw hx hy
  obtain rfl : drawn s x y n.toNat = t := by simpa [exec_drw_of_inside x y hin] using hdraw
  have hbit := spriteBit_drawn hx hy
  refine ⟨_, exec_drw_of_inside x y hin, fun row col => ?_, ?_⟩
  · rw [drawn_pixel, hbit, drawn_pixel, Bool.xor_assoc, Bool.xor_self, Bool.xor_false]
  · have hflag (b : Bool) : flagByte b = 1 ↔ b = true := by cases b <;> decide
    rw [drawn_flag, hflag, drawSprite_hit, hbit]
    refine exists_congr fun row => exists_congr fun col => ?_
    rw [drawn_pixel]
    cases s.fb.pixel row col <;> cases spriteBit s x y n.toNat row col <;> simp

end Sys2Proof.Machine
end
